-- ==== Sys2Proof/Word.lean ====
section
/-! DEFINITION. The word types of the UNG_S2 protocol core (00_scope.md R11). -/

namespace Sys2Proof

/-- A byte, an integer 0 to 255 (R11). -/
abbrev Byte := BitVec 8

/-- A word16, an integer 0 to 65535 (R11); the width of the CRC (R100). -/
abbrev Word16 := BitVec 16

/-- A host word: `CMD`, `OPA` or `OPB` (R71, R73). -/
abbrev Word32 := BitVec 32

end Sys2Proof
end

