-- ==== Sys2Proof/Machine/Checksum.lean ====
section
/-! DEFINITION. The CRC-16 generator (40_checksum.md R100 to R108). The polynomial, the initial value and the absence
of reflection are the source's; the final exclusive OR of 0x0000 is the spec's choice from general knowledge (R100;
PRESUMED, log entry 12). -/

namespace Sys2Proof.Machine

/-- One of the eight bit steps of `CrcStep` (R102). -/
def crcBit (c : Word16) : Word16 := if c.getLsbD 15 then (c <<< 1) ^^^ 0x1021 else c <<< 1

/-- `k` bit steps. -/
def crcBits : Nat → Word16 → Word16
  | 0, c => c
  | k + 1, c => crcBits k (crcBit c)

/-- `CrcStep(c, b)` (R102). -/
def crcStep (c : Word16) (b : Byte) : Word16 := crcBits 8 (c ^^^ (b.setWidth 16 <<< 8))

/-- `crc16(s)` (R101). -/
def crc16 (s : List Byte) : Word16 := s.foldl crcStep 0xFFFF

/-- `c[7:0]`, the CRC byte sent first (R105). -/
def crcLow (c : Word16) : Byte := c.extractLsb' 0 8

/-- `c[15:8]`, the CRC byte sent second (R105). -/
def crcHigh (c : Word16) : Byte := c.extractLsb' 8 8

/-- The trailer value `(hi << 8) | lo` (R105). -/
def trailerValue (lo hi : Byte) : Word16 := (hi.setWidth 16 <<< 8) ||| lo.setWidth 16

end Sys2Proof.Machine
end

