-- ==== Sys2Proof/Config.lean ====
section
/-! DEFINITION. The implementation parameters of the block (00_scope.md R8). The fixed ones are constants. The open ones
are the fields of `Config`, which State carries and no step writes (R20, R35; log entry 4). The spec leaves no value
free, so there is no opaque constant here (93_implementation_defined.md). -/

namespace Sys2Proof

/-- `ADDR_LO`, the lowest pump address (R8). -/
def addrLo : Byte := 0x50
/-- `ADDR_HI`, the highest pump address (R8). -/
def addrHi : Byte := 0x6F
/-- `CTRL_OUT`, the control byte of every outgoing frame (R8). -/
def ctrlOut : Byte := 0x11
/-- `ETX`, the terminator byte (R8). -/
def etx : Byte := 0x03
/-- `FRAME_END`, the frame-end and delimiter byte (R8). -/
def frameEnd : Byte := 0xFA
/-- `PRESET_WIDTH`, the width in bytes of the host's preset fields (R8). -/
def presetWidth : Nat := 4
/-- `MIN_FRAME`, the shortest candidate frame inspected, in bytes (R8). -/
def minFrame : Nat := 7

/-- The open parameters of R8. -/
structure Config where
  /-- `BUF_CAP`: the largest candidate frame in bytes, counting the 0xFA (R8, R9). -/
  bufCap : Nat
  /-- `CHECK_ADDR`: reject a host command whose address is outside 0x50 to 0x6F (R8, R233). -/
  checkAddr : Bool
  /-- `PRICE_LIMIT`: the largest received price in hundredths, `none` for unbounded (R8, R183). -/
  priceLimit : Option Nat
  /-- `POLL_PERIOD`: the time between TICK inputs; outside the block, and no rule reads it (R8, R212). -/
  pollPeriodSeconds : Nat
deriving DecidableEq, Repr

/-- The default configuration (R8; 95_test_vectors.md): `BUF_CAP = 64`, `CHECK_ADDR = false`, `PRICE_LIMIT` unbounded,
and the observed poll period of one second. -/
def Config.standard : Config :=
  { bufCap := 64, checkAddr := false, priceLimit := none, pollPeriodSeconds := 1 }

end Sys2Proof
end

