-- ==== Sys2Proof/Syntax.lean ====
section
/-! DEFINITION. The inputs of the block, the twenty rows of spec/opcode_table.json as instructions, and the encoded
forms they are decoded from (10_state.md R29, 30_encoding.md R70 to R90). -/

namespace Sys2Proof

/-- The instructions: one constructor per row of spec/opcode_table.json. `addr` is the address byte of the command or
frame; `ctrl`, `tc`, `len` and `data` are the CTRL, TRANS, LEN and DATA parts of a received body (R77). -/
inductive Instr where
  -- HOSTCMD (R72)
  /-- REQUEST_STATUS (R143). -/
  | requestStatus (addr : Byte)
  /-- STOP (R145). -/
  | stop (addr : Byte)
  /-- PUMP_RESET (R146). -/
  | pumpReset (addr : Byte)
  /-- AUTHORIZE (R144). `volume` is `OPA` when `HAS_VOL = 1`, `amount` is `OPB` when `HAS_AMT = 1` (R73). -/
  | authorize (addr nozzle : Byte) (volume amount : Option Word32)
  -- WIRE_OUT (R78 to R81)
  /-- CD1.STATUS, "return status" (R78). -/
  | cd1Status (addr : Byte)
  /-- CD1.RESET (R78). -/
  | cd1Reset (addr : Byte)
  /-- CD1.AUTHORIZE (R78). -/
  | cd1Authorize (addr : Byte)
  /-- CD1.STOP (R78). -/
  | cd1Stop (addr : Byte)
  /-- CD2.NOZZLE, nozzle selection (R79). -/
  | cd2Nozzle (addr nozzle : Byte)
  /-- CD3.PRESET_VOL, a volume preset in hundredths (R80). -/
  | cd3PresetVol (addr : Byte) (volume : Nat)
  /-- CD4.PRESET_AMT, an amount preset in hundredths (R81). -/
  | cd4PresetAmt (addr : Byte) (amount : Nat)
  -- WIRE_IN (R82, R83, R85)
  /-- DC1.STATUS, a 0x81 status report (R180). -/
  | dc1Status (addr ctrl len : Byte) (data : List Byte)
  /-- DC1.VOLAMT, a 0x81 volume and amount report (R181). -/
  | dc1Volamt (addr ctrl len : Byte) (data : List Byte)
  /-- DC1.OTHER, every other 0x81 frame (R182). -/
  | dc1Other (addr ctrl len : Byte) (data : List Byte)
  /-- DC3.NOZPRICE, a 0x83 nozzle and price report (R183). -/
  | dc3Nozprice (addr ctrl len : Byte) (data : List Byte)
  /-- RX.IGNORED, a frame of any other transaction code (R184). -/
  | rxIgnored (addr ctrl tc len : Byte) (data : List Byte)
  -- PORT (R29)
  /-- RX, one received chunk (R170). -/
  | rx (chunk : List Byte)
  /-- TICK, the poll sweep (R210). -/
  | tick
  /-- RESET, the block reset of the RST port (R260). -/
  | reset
  /-- SNAP, a read of one snapshot entry (R215). -/
  | snap (addr : Byte)
deriving DecidableEq, Repr

/-- One input of the block, by the port it arrives on (R29). -/
inductive Input where
  /-- The CMD port: a command word and two operand words (R71, R73). -/
  | cmd (cmd opa opb : Word32)
  /-- The RX port: one chunk (R170). -/
  | rx (chunk : List Byte)
  /-- The TICK port (R210). -/
  | tick
  /-- The RST port (R260). -/
  | rst
  /-- The SNAP port: an address byte (R215). -/
  | snap (addr : Byte)
deriving DecidableEq, Repr

/-- An encoded instruction, by its encoding group (R70). -/
inductive Code where
  /-- `HOSTCMD` and `PORT`: an input of the block. -/
  | input (input : Input)
  /-- `WIRE_OUT`: a payload `[TRANS, LEN] ++ DATA` and the address of its frame (R76). -/
  | payload (addr : Byte) (bytes : List Byte)
  /-- `WIRE_IN`: the body `[ADDR, CTRL, TRANS, LEN] ++ DATA` of a received frame (R77). -/
  | body (bytes : List Byte)
deriving DecidableEq, Repr

/-- The form of a received body: which `WIRE_IN` row it is (R82, R83, R85). -/
inductive WireForm where
  | dc1Status
  | dc1Volamt
  | dc1Other
  | dc3Nozprice
  | ignored
deriving DecidableEq, Repr

/-- Why the decoder answers no instruction, each by name. -/
inductive DecodeError where
  /-- `CMD[31:26] != 0` (R74, R232). -/
  | reservedBits
  /-- `CMD[7:0]` is not 0x01 to 0x04 (R72, R232). -/
  | unassignedOpcode
  /-- A body of fewer than four bytes (R179). -/
  | shortBody
  /-- A payload of none of the seven forms the block sends (R78 to R81). -/
  | unknownPayload
  /-- A CD3 or CD4 payload whose data is no packed decimal (R80, R81, R122). -/
  | payloadDigits
deriving DecidableEq, Repr

end Sys2Proof
end

