-- ==== Sys2Proof/Machine/State.lean ====
section
/-! DEFINITION. The state of the block as plain data, its value after reset, and the reasons a step can stop
(10_state.md R20 to R35). -/

namespace Sys2Proof.Machine

/-- The receive state (R22). -/
inductive RxState where
  /-- Bytes are appended to `buf`; encoded 0. -/
  | collecting
  /-- Bytes are dropped until the next 0xFA; encoded 1. -/
  | discard
deriving DecidableEq, Repr

/-- One snapshot entry: six optional fields (R25). A delta is an entry that holds only the fields a frame supplied
(R31). -/
structure Entry where
  /-- The status byte as received (R84). -/
  status : Option Byte
  /-- Hundredths (R19). -/
  volume : Option Nat
  /-- Hundredths (R19). -/
  amount : Option Nat
  /-- Bits [3:0] of the nozzle-status byte (R83). -/
  nozzle : Option (BitVec 4)
  /-- Bit [4] of the nozzle-status byte (R83). -/
  inUse : Option Bool
  /-- Hundredths (R19). -/
  price : Option Nat
deriving DecidableEq, Repr

/-- The entry no update has written: every field `none` (R13, R26). -/
def Entry.empty : Entry :=
  { status := none, volume := none, amount := none, nozzle := none, inUse := none, price := none }

/-- The snapshot table (R24): the entries that are not `Entry.empty`, by address byte. -/
abbrev SnapTable := List (Byte × Entry)

/-- The canonical form of the table: addresses strictly rising, and no entry equal to what an unlisted address reads as
(log entry 6). -/
abbrev SnapTable.wf (t : SnapTable) : Prop :=
  t.Pairwise (fun x y => x.1.toNat < y.1.toNat) ∧ ∀ c ∈ t, c.2 ≠ Entry.empty

/-- One update event (R31). -/
structure Event where
  /-- The address byte of the frame. -/
  addr : Byte
  /-- The fields the frame supplied. -/
  delta : Entry
  /-- The entry after the merge. -/
  snap : Entry
deriving DecidableEq, Repr

/-- One response to the host (R29). -/
inductive Response where
  /-- The result code of a host command (R27, R75). -/
  | result (code : Byte)
  /-- The entry a SNAP read returns (R215). -/
  | snap (addr : Byte) (entry : Entry)
deriving DecidableEq, Repr

/-- The machine. `rxState`, `buf`, `snap` and `result` are the block's state (R20); `cfg` holds its parameters (R8);
`inputs`, `tx`, `events` and `responses` are the environment's side of its ports (R29). -/
structure State where
  /-- The parameters; no step writes them (R20, R35; log entry 4). -/
  cfg : Config
  /-- `state`, the receive state (R22). -/
  rxState : RxState
  /-- `buf`, the receive buffer (R23). -/
  buf : List Byte
  /-- `snap`, the snapshot table (R24). -/
  snap : SnapTable
  /-- `RESULT`, the result code of the most recent host command (R27). -/
  result : Byte
  /-- The inputs the environment will deliver, in its order (R10, R34; the model's own field, log entry 1). -/
  inputs : List Input
  /-- The TX stream, oldest byte first (R30; log entry 3). -/
  tx : List Byte
  /-- The event stream, oldest event first (R31; log entry 3). -/
  events : List Event
  /-- The responses of the CMD and SNAP ports, oldest first (R27, R29, R215; the model's own field, log entry 14). -/
  responses : List Response
deriving DecidableEq, Repr

/-- The machine right after reset and at power-up (R35, R260, R261), in the default configuration (R8), with no input
waiting and nothing yet written to a stream (log entries 1, 3, 4, 14). -/
def State.reset : State :=
  { cfg := Config.standard
    rxState := .collecting
    buf := []
    snap := []
    result := 0x00
    inputs := []
    tx := []
    events := []
    responses := [] }

/-- Why the machine stops with a fault: nothing does. Every error of the block is a result code or a dropped frame, and
no failure is fatal (R240, R241; log entry 7). -/
inductive Fault
deriving DecidableEq, Repr

/-- Why the machine refuses to go on. -/
inductive Refusal where
  /-- Raised by an arm of `exec` for an instruction without a meaning; no arm raises it. Safe: the run stops. -/
  | notModelled (mnemonic : String)
  /-- Raised by `step` when `BUF_CAP` is below 17, a configuration the block does not accept (R9,
  93_implementation_defined.md item 3; log entry 5). Safe: the run stops before any effect. -/
  | configRejected (bufCap : Nat)
deriving DecidableEq, Repr

end Sys2Proof.Machine
end

