-- ==== Sys2Proof/Machine/Flags.lean ====
section
/-! DEFINITION. The block has no condition codes (10_state.md R28). What stands in their place: the codes of `RESULT`
(R27, R75, R231), the register encoding of the receive state (R22), and the check that raises ERR_ADDR (R233). -/

namespace Sys2Proof.Machine

/-- The errors of a host command (R231). -/
inductive HostError where
  /-- ERR_ILLEGAL (R232). -/
  | illegal
  /-- ERR_OVERFLOW (R234). -/
  | overflow
  /-- ERR_ADDR (R233). -/
  | addr
deriving DecidableEq, Repr

/-- The code of an error (R231). -/
def HostError.code : HostError → Byte
  | .illegal => 0x01
  | .overflow => 0x02
  | .addr => 0x03

/-- The code of success, OK (R231). -/
def okCode : Byte := 0x00

/-- The one-bit encoding of the receive state (R22). -/
def rxStateBit : RxState → BitVec 1
  | .collecting => 0
  | .discard => 1

/-- The address is 0x50 to 0x6F (R8, R51). -/
def isPumpAddr (addr : Byte) : Bool := addrLo ≤ addr && addr ≤ addrHi

/-- The host-command check that raises ERR_ADDR (R142, R233). -/
def addrRefused (cfg : Config) (addr : Byte) : Bool := !isPumpAddr addr && cfg.checkAddr

end Sys2Proof.Machine
end

