-- ==== Sys2Proof/Machine/Bcd.lean ====
section
/-! DEFINITION. The packed-decimal codec (41_bcd_codec.md R120 to R128). -/

namespace Sys2Proof.Machine

/-- One byte that shows two decimal digits: the tens in bits [7:4], the units in bits [3:0] (R54, R120). -/
def bcdByte (pair : Nat) : Byte := (BitVec.ofNat 8 (pair / 10) <<< 4) ||| BitVec.ofNat 8 (pair % 10)

/-- `bcd_encode(v, n)` (R120); `none` is the overflow that the caller raises as ERR_OVERFLOW (R121). -/
def bcdEncode (v n : Nat) : Option (List Byte) :=
  if 10 ^ (2 * n) ≤ v then none
  else some ((List.range n).map fun i => bcdByte (v / 10 ^ (2 * (n - 1 - i)) % 100))

/-- The more significant digit lane of a byte, bits [7:4] (R128). -/
def digitHi (b : Byte) : Nat := (b >>> 4).toNat

/-- The less significant digit lane of a byte, bits [3:0] (R128). -/
def digitLo (b : Byte) : Nat := (b &&& 0x0F).toNat

/-- The loop of `bcd_decode`: `v` is the value of the bytes already read (R123). -/
def bcdDecodeFrom (v : Nat) : List Byte → Option Nat
  | [] => some v
  | b :: s =>
    if 9 < digitHi b ∨ 9 < digitLo b then none
    else bcdDecodeFrom (v * 100 + digitHi b * 10 + digitLo b) s

/-- `bcd_decode(s)`; `none` is INVALID (R123 to R125). -/
def bcdDecode (s : List Byte) : Option Nat :=
  match s with
  | [] => none
  | b :: t => bcdDecodeFrom 0 (b :: t)

end Sys2Proof.Machine
end

