-- ==== Sys2Proof/Machine/Operands.lean ====
section
/-! DEFINITION. Operand forms: the payloads the block sends, the fields of a received report, the names of the status
values, and the word layout of a snapshot entry (30_encoding.md R73, R78 to R84, R87; 10_state.md R32). -/

namespace Sys2Proof.Machine

/-- CD1.STATUS (R78). -/
def payloadStatus : List Byte := [0x01, 0x01, 0x00]
/-- CD1.RESET (R78). -/
def payloadReset : List Byte := [0x01, 0x01, 0x05]
/-- CD1.AUTHORIZE (R78). -/
def payloadAuthorize : List Byte := [0x01, 0x01, 0x06]
/-- CD1.STOP (R78). -/
def payloadStop : List Byte := [0x01, 0x01, 0x08]
/-- CD2 (R79). -/
def payloadNozzle (nozzle : Byte) : List Byte := [0x02, 0x01, nozzle]

/-- CD3 (`tc` 0x03) or CD4 (`tc` 0x04) with a preset in hundredths; ERR_OVERFLOW when it does not fit four BCD
bytes (R80, R81, R121). -/
def payloadPreset (tc : Byte) (v : Nat) : Except HostError (List Byte) :=
  match bcdEncode v presetWidth with
  | some digits => .ok ([tc, 0x04] ++ digits)
  | none => .error .overflow

/-- The payload of an optional preset, none when it is absent (R144; 92_eei_decisions.md D8). -/
def presetPayloads (tc : Byte) (preset : Option Word32) : Except HostError (List (List Byte)) :=
  match preset with
  | none => .ok []
  | some w =>
    match payloadPreset tc w.toNat with
    | .ok p => .ok [p]
    | .error e => .error e

/-- The payloads of AUTHORIZE in their fixed order, or the error of the first preset that overflows, the volume checked
before the amount (R144, R235). -/
def authorizePayloads (nozzle : Byte) (volume amount : Option Word32) : Except HostError (List (List Byte)) :=
  match presetPayloads 0x03 volume with
  | .error e => .error e
  | .ok vs =>
    match presetPayloads 0x04 amount with
    | .error e => .error e
    | .ok ms => .ok ([payloadNozzle nozzle] ++ vs ++ ms ++ [payloadAuthorize])

/-- The addresses of a poll sweep, 0x50 to 0x6F ascending (R210). -/
def pollAddresses : List Byte := (List.range 32).map fun i => addrLo + BitVec.ofNat 8 i

/-- Why a candidate frame is dropped. Not observable from outside the block (R175). -/
inductive DropReason where
  /-- Fewer than 7 bytes (R176). -/
  | short
  /-- The CRC does not match (R178). -/
  | crc
  /-- A byte that the form reads is absent (R179). -/
  | missing
  /-- A BCD field has a nibble above 9 (R124). -/
  | badBcd
  /-- The price exceeds `PRICE_LIMIT` (R183). -/
  | range
  /-- No recognised form (R182, R184). -/
  | ignored
deriving DecidableEq, Repr

/-- `s[i..j)`, bytes i up to but not including j (R12). -/
def slice (s : List Byte) (i j : Nat) : List Byte := (s.drop i).take (j - i)

/-- `ns[3:0]`, the nozzle number of a nozzle-status byte (R83, R87). -/
def nozzleNumber (ns : Byte) : BitVec 4 := ns.extractLsb' 0 4

/-- `ns[4] = 1`, the in-use flag of a nozzle-status byte (R83, R87). -/
def nozzleInUse (ns : Byte) : Bool := ns.getLsbD 4

/-- The price is at most `PRICE_LIMIT` (R183). -/
def priceAllowed (limit : Option Nat) (p : Nat) : Bool :=
  match limit with
  | none => true
  | some l => p ≤ l

/-- The delta of DC1.STATUS (R180). -/
def deltaStatus (data : List Byte) : Except DropReason Entry :=
  match data[1]? with
  | some b => .ok { Entry.empty with status := some b }
  | none => .error .missing

/-- The delta of DC1.VOLAMT (R181). -/
def deltaVolamt (data : List Byte) : Except DropReason Entry :=
  if data.length < 9 then .error .missing
  else
    match bcdDecode (slice data 1 5), bcdDecode (slice data 5 9) with
    | some v, some m => .ok { Entry.empty with volume := some v, amount := some m }
    | _, _ => .error .badBcd

/-- DC1.OTHER supplies nothing; without `data[0]` a byte is missing, else the frame is ignored (R180, R182). -/
def deltaOther (data : List Byte) : Except DropReason Entry :=
  match data with
  | [] => .error .missing
  | _ :: _ => .error .ignored

/-- The delta of DC3.NOZPRICE (R183). -/
def deltaNozprice (limit : Option Nat) (data : List Byte) : Except DropReason Entry :=
  match data with
  | _ :: ns :: b :: more =>
    match bcdDecode (b :: more) with
    | none => .error .badBcd
    | some p =>
      if priceAllowed limit p then
        .ok { Entry.empty with nozzle := some (nozzleNumber ns), inUse := some (nozzleInUse ns), price := some p }
      else .error .range
  | _ => .error .missing

/-- The named status values (R84). -/
inductive StatusName where
  | notProgrammed
  | reset
  | authorized
  | filling
  | filled
  | presetReached
  | switchedOff
deriving DecidableEq, Repr

/-- The name of a status byte; 3 and 8 to 255 have none. The block gives no status value a meaning (R84). -/
def statusName (b : Byte) : Option StatusName :=
  if b = 0 then some .notProgrammed
  else if b = 1 then some .reset
  else if b = 2 then some .authorized
  else if b = 4 then some .filling
  else if b = 5 then some .filled
  else if b = 6 then some .presetReached
  else if b = 7 then some .switchedOff
  else none

/-- Word W0 of a printed entry: the valid bits [5:0], STATUS [15:8], NOZZLE [19:16], INUSE [20], the rest 0 (R32). -/
def entryW0 (e : Entry) : Word32 :=
  BitVec.ofNat 32
    (e.status.isSome.toNat + 2 ^ 1 * e.volume.isSome.toNat + 2 ^ 2 * e.amount.isSome.toNat +
      2 ^ 3 * e.nozzle.isSome.toNat + 2 ^ 4 * e.inUse.isSome.toNat + 2 ^ 5 * e.price.isSome.toNat +
      2 ^ 8 * (e.status.getD 0).toNat + 2 ^ 16 * (e.nozzle.getD 0).toNat + 2 ^ 20 * (e.inUse.getD false).toNat)

/-- Word W1 of a printed entry, VOLUME (R32). -/
def entryW1 (e : Entry) : Word32 := BitVec.ofNat 32 (e.volume.getD 0)

/-- Word W2 of a printed entry, AMOUNT (R32). -/
def entryW2 (e : Entry) : Word32 := BitVec.ofNat 32 (e.amount.getD 0)

/-- Word W3 of a printed entry, PRICE, of unbounded width (R32). -/
def entryW3 (e : Entry) : Nat := e.price.getD 0

end Sys2Proof.Machine
end

