-- ==== Sys2Proof/Machine/Ops.lean ====
section
/-! DEFINITION. The named operations over the state: the snapshot table (R24, R185, R215), the TX stream (R140), the
event stream (R186), and the ending of a host command, with or without an error (R142). An error of a host command is
the block's only exception: it saves no state and transfers control nowhere (R240), there is no return from it (R241),
and `State.raiseError` is the one operation that takes it. -/

namespace Sys2Proof.Machine

/-- `SnapRead(a)`: an unlisted address reads as the entry nothing has written (R13, R215). -/
def snapLookup : SnapTable → Byte → Entry
  | [], _ => Entry.empty
  | (k, e) :: t, a => if k = a then e else snapLookup t a

/-- Insert an entry in front of the first higher address. -/
def snapInsert (a : Byte) (e : Entry) : SnapTable → SnapTable
  | [] => [(a, e)]
  | (k, x) :: t => if a.toNat < k.toNat then (a, e) :: (k, x) :: t else (k, x) :: snapInsert a e t

/-- `SnapWrite(a, e)`, keeping the canonical form. -/
def snapStore (t : SnapTable) (a : Byte) (e : Entry) : SnapTable :=
  if e = Entry.empty then t.filter (fun c => c.1 ≠ a)
  else snapInsert a e (t.filter (fun c => c.1 ≠ a))

/-- The merge of one entry: a field present in the delta overwrites, every other keeps its value (R185). -/
def Entry.merge (e delta : Entry) : Entry :=
  { status := delta.status.or e.status
    volume := delta.volume.or e.volume
    amount := delta.amount.or e.amount
    nozzle := delta.nozzle.or e.nozzle
    inUse := delta.inUse.or e.inUse
    price := delta.price.or e.price }

/-- `Merge(a, delta)` on the table (R185). -/
def snapMerge (t : SnapTable) (a : Byte) (delta : Entry) : SnapTable :=
  snapStore t a ((snapLookup t a).merge delta)

/-- The bytes that close a frame over `body`: the CRC low byte first, then the ETX and the frame end (R105, R140). -/
def frameTrailer (body : List Byte) : List Byte :=
  [crcLow (crc16 body), crcHigh (crc16 body), etx, frameEnd]

/-- The frame of a body (R76, R77). -/
def closeFrame (body : List Byte) : List Byte := body ++ frameTrailer body

/-- The bytes `TxFrame(a, p)` writes (R140). -/
def frameBytes (addr : Byte) (payload : List Byte) : List Byte := closeFrame ([addr, ctrlOut] ++ payload)

/-- `TxFrame(a, p)`: append one frame to the TX stream (R140). -/
def State.txFrame (s : State) (addr : Byte) (payload : List Byte) : State :=
  { s with tx := s.tx ++ frameBytes addr payload }

/-- Write several frames to one address, in order (R61). -/
def State.txFrames (s : State) (addr : Byte) (payloads : List (List Byte)) : State :=
  payloads.foldl (fun s p => s.txFrame addr p) s

/-- Write `RESULT` and return the code to the host (R27, R142). -/
def State.respond (s : State) (code : Byte) : State :=
  { s with result := code, responses := s.responses ++ [.result code] }

/-- `raise E(info)`: end a host command with the code of an error and no other effect (R14, R148, R240). -/
def State.raiseError (s : State) (e : HostError) : State := s.respond e.code

/-- End a host command with OK (R142). -/
def State.complete (s : State) : State := s.respond okCode

/-- The host-command step after decoding (R142): the address check, then the operand checks that building the payloads
makes, and only then the frames. -/
def State.hostCommand (s : State) (addr : Byte) (payloads : Except HostError (List (List Byte))) : State :=
  if addrRefused s.cfg addr then s.raiseError .addr
  else
    match payloads with
    | .error e => s.raiseError e
    | .ok ps => (s.txFrames addr ps).complete

/-- `Merge(a, delta)`, then `Emit` of the event with the merged entry (R174, R185, R186). -/
def State.report (s : State) (addr : Byte) (delta : Entry) : State :=
  { s with
    snap := snapMerge s.snap addr delta
    events := s.events ++ [{ addr := addr, delta := delta, snap := snapLookup (snapMerge s.snap addr delta) addr }] }

/-- The end of decoding one received body: a delta is merged and reported, a drop changes nothing (R174, R175). -/
def State.deliver (s : State) (addr : Byte) (delta : Except DropReason Entry) : State :=
  match delta with
  | .ok d => s.report addr d
  | .error _ => s

end Sys2Proof.Machine
end

