-- ==== Sys2Proof/Machine/HostCommand.lean ====
section
/-! DEFINITION. The host commands (42_frame_builder.md R142 to R150). -/

namespace Sys2Proof.Machine

/-- REQUEST_STATUS (R143). -/
def execRequestStatus (addr : Byte) (s : State) : Host.Outcome State Fault Refusal :=
  .next (s.hostCommand addr (.ok [payloadStatus]))

/-- STOP (R145). -/
def execStop (addr : Byte) (s : State) : Host.Outcome State Fault Refusal :=
  .next (s.hostCommand addr (.ok [payloadStop]))

/-- PUMP_RESET (R146). -/
def execPumpReset (addr : Byte) (s : State) : Host.Outcome State Fault Refusal :=
  .next (s.hostCommand addr (.ok [payloadReset]))

/-- AUTHORIZE (R144). -/
def execAuthorize (addr nozzle : Byte) (volume amount : Option Word32) (s : State) :
    Host.Outcome State Fault Refusal :=
  .next (s.hostCommand addr (authorizePayloads nozzle volume amount))

/-- A command word that is no instruction: ERR_ILLEGAL (R232; log entry 13). -/
def execIllegal (s : State) : Host.Outcome State Fault Refusal := .next (s.raiseError .illegal)

end Sys2Proof.Machine
end

