-- ==== Sys2Proof/WellFormed.lean ====
section
/-! DEFINITION. Which instructions and which configurations are well formed. -/

namespace Sys2Proof

/-- Why an instruction is not well formed, each by name. -/
inductive FormError where
  /-- A preset above 99,999,999 hundredths does not fit four BCD bytes (R121). -/
  | presetTooLarge
  /-- The first data byte is not the one of the form (R82). -/
  | wrongDiscriminator
  /-- `LEN` is below the minimum of the form (R82). -/
  | lenTooSmall
  /-- DC1.OTHER names a body that is DC1.STATUS or DC1.VOLAMT (R182). -/
  | notResidual
  /-- RX.IGNORED names a body with `TRANS` 0x81 or 0x83 (R184). -/
  | recognisedTransaction
deriving DecidableEq, Repr

/-- The largest preset or received BCD4 value, in hundredths (R121). -/
def presetMax : Nat := 99999999

/-- What is wrong with an instruction, if anything. -/
def Instr.formError : Instr → Option FormError
  | .requestStatus _ => none
  | .stop _ => none
  | .pumpReset _ => none
  | .authorize _ _ _ _ => none
  | .cd1Status _ => none
  | .cd1Reset _ => none
  | .cd1Authorize _ => none
  | .cd1Stop _ => none
  | .cd2Nozzle _ _ => none
  | .cd3PresetVol _ v => if v ≤ presetMax then none else some .presetTooLarge
  | .cd4PresetAmt _ m => if m ≤ presetMax then none else some .presetTooLarge
  | .dc1Status _ _ len data =>
    if data.head? ≠ some 0x00 then some .wrongDiscriminator else if len < 2 then some .lenTooSmall else none
  | .dc1Volamt _ _ len data =>
    if data.head? ≠ some 0x04 then some .wrongDiscriminator else if len < 8 then some .lenTooSmall else none
  | .dc1Other _ _ len data =>
    if (data.head? = some 0x00 ∧ 2 ≤ len) ∨ (data.head? = some 0x04 ∧ 8 ≤ len) then some .notResidual else none
  | .dc3Nozprice _ _ _ _ => none
  | .rxIgnored _ _ tc _ _ => if tc = 0x81 ∨ tc = 0x83 then some .recognisedTransaction else none
  | .rx _ => none
  | .tick => none
  | .reset => none
  | .snap _ => none

/-- An instruction some encoding stands for. -/
abbrev Instr.WellFormed (i : Instr) : Prop := i.formError = none

/-- A configuration the block accepts: `BUF_CAP` is at least 17 (R9). -/
abbrev Config.WellFormed (c : Config) : Prop := 17 ≤ c.bufCap

end Sys2Proof
end

