-- ==== Sys2Proof/Decode.lean ====
section
/-! DEFINITION. The decoder, total on every encoded form and rejecting by name, and the encoder (30_encoding.md R70 to
R90). A host command is decoded from its words, a payload the block sends from its bytes, the body of a received frame
from its bytes, and an input without opcode from its port. -/

namespace Sys2Proof

/-- `OP`, `CMD[7:0]` (R71). -/
def cmdOp (c : Word32) : Byte := c.extractLsb' 0 8
/-- `ADDR`, `CMD[15:8]` (R71). -/
def cmdAddr (c : Word32) : Byte := c.extractLsb' 8 8
/-- `NOZZLE`, `CMD[23:16]` (R71). -/
def cmdNozzle (c : Word32) : Byte := c.extractLsb' 16 8
/-- `HAS_VOL`, `CMD[24]` (R71). -/
def cmdHasVol (c : Word32) : Bool := c.getLsbD 24
/-- `HAS_AMT`, `CMD[25]` (R71). -/
def cmdHasAmt (c : Word32) : Bool := c.getLsbD 25
/-- The reserved bits `CMD[31:26]` (R71, R74). -/
def cmdReserved (c : Word32) : BitVec 6 := c.extractLsb' 26 6

/-- Decoding a host command (R90): the reserved bits first, then the opcode. -/
def decodeCommand (cmd opa opb : Word32) : Except DecodeError Instr :=
  if cmdReserved cmd ≠ 0 then .error .reservedBits
  else if cmdOp cmd = 0x01 then .ok (.requestStatus (cmdAddr cmd))
  else if cmdOp cmd = 0x02 then
    .ok (.authorize (cmdAddr cmd) (cmdNozzle cmd)
      (if cmdHasVol cmd then some opa else none) (if cmdHasAmt cmd then some opb else none))
  else if cmdOp cmd = 0x03 then .ok (.stop (cmdAddr cmd))
  else if cmdOp cmd = 0x04 then .ok (.pumpReset (cmdAddr cmd))
  else .error .unassignedOpcode

/-- Decoding an input: by its port, and on the CMD port by its words (R90). -/
def decodeInput : Input → Except DecodeError Instr
  | .cmd cmd opa opb => decodeCommand cmd opa opb
  | .rx chunk => .ok (.rx chunk)
  | .tick => .ok .tick
  | .rst => .ok .reset
  | .snap addr => .ok (.snap addr)

/-- Decoding a payload the block sends (R78 to R81): by its length and its fixed bytes, as the rows of the opcode table
have them. -/
def decodePayload (addr : Byte) (bytes : List Byte) : Except DecodeError Instr :=
  match bytes with
  | [tc, len, b] =>
    if tc = 0x01 ∧ len = 0x01 ∧ b = 0x00 then .ok (.cd1Status addr)
    else if tc = 0x01 ∧ len = 0x01 ∧ b = 0x05 then .ok (.cd1Reset addr)
    else if tc = 0x01 ∧ len = 0x01 ∧ b = 0x06 then .ok (.cd1Authorize addr)
    else if tc = 0x01 ∧ len = 0x01 ∧ b = 0x08 then .ok (.cd1Stop addr)
    else if tc = 0x02 ∧ len = 0x01 then .ok (.cd2Nozzle addr b)
    else .error .unknownPayload
  | [tc, len, d0, d1, d2, d3] =>
    if tc = 0x03 ∧ len = 0x04 then
      match Machine.bcdDecode [d0, d1, d2, d3] with
      | some v => .ok (.cd3PresetVol addr v)
      | none => .error .payloadDigits
    else if tc = 0x04 ∧ len = 0x04 then
      match Machine.bcdDecode [d0, d1, d2, d3] with
      | some m => .ok (.cd4PresetAmt addr m)
      | none => .error .payloadDigits
    else .error .unknownPayload
  | _ => .error .unknownPayload

/-- Which `WIRE_IN` row a received body is: by `TRANS`, then for 0x81 by `data[0]` and `LEN` (R82, R83, R85, R90). A
0x81 body whose `LEN` fails the test of its form is DC1.OTHER, as R180 to R182 say (log entry 11). -/
def classify (tc len : Byte) (data : List Byte) : WireForm :=
  if tc = 0x81 then
    if data.head? = some 0x00 ∧ 2 ≤ len then .dc1Status
    else if data.head? = some 0x04 ∧ 8 ≤ len then .dc1Volamt
    else .dc1Other
  else if tc = 0x83 then .dc3Nozprice
  else .ignored

/-- Decoding the body of a received frame (R77, R90); a body without a `LEN` byte is no instruction (R179). -/
def decodeBody (bytes : List Byte) : Except DecodeError Instr :=
  match bytes with
  | addr :: ctrl :: tc :: len :: data =>
    match classify tc len data with
    | .dc1Status => .ok (.dc1Status addr ctrl len data)
    | .dc1Volamt => .ok (.dc1Volamt addr ctrl len data)
    | .dc1Other => .ok (.dc1Other addr ctrl len data)
    | .dc3Nozprice => .ok (.dc3Nozprice addr ctrl len data)
    | .ignored => .ok (.rxIgnored addr ctrl tc len data)
  | _ => .error .shortBody

/-- The decoder, over the three encoding groups and the ports (R70). -/
def decode : Code → Except DecodeError Instr
  | .input input => decodeInput input
  | .payload addr bytes => decodePayload addr bytes
  | .body bytes => decodeBody bytes

/-- A command word from its fields (R71), the reserved bits 0. -/
def commandWord (op addr nozzle : Byte) (hasVol hasAmt : Bool) : Word32 :=
  BitVec.ofNat 32 (op.toNat + 2 ^ 8 * addr.toNat + 2 ^ 16 * nozzle.toNat + 2 ^ 24 * hasVol.toNat + 2 ^ 25 * hasAmt.toNat)

/-- The four BCD bytes of a preset, for a value that fits (R80, R81). -/
def presetBytes (v : Nat) : List Byte := (Machine.bcdEncode v presetWidth).getD []

/-- The encoder: the encoded form of an instruction, its ignored fields 0 (R71, R77 to R83, R88). -/
def encode : Instr → Code
  | .requestStatus addr => .input (.cmd (commandWord 0x01 addr 0 false false) 0 0)
  | .stop addr => .input (.cmd (commandWord 0x03 addr 0 false false) 0 0)
  | .pumpReset addr => .input (.cmd (commandWord 0x04 addr 0 false false) 0 0)
  | .authorize addr nozzle volume amount =>
    .input (.cmd (commandWord 0x02 addr nozzle volume.isSome amount.isSome) (volume.getD 0) (amount.getD 0))
  | .cd1Status addr => .payload addr [0x01, 0x01, 0x00]
  | .cd1Reset addr => .payload addr [0x01, 0x01, 0x05]
  | .cd1Authorize addr => .payload addr [0x01, 0x01, 0x06]
  | .cd1Stop addr => .payload addr [0x01, 0x01, 0x08]
  | .cd2Nozzle addr nozzle => .payload addr [0x02, 0x01, nozzle]
  | .cd3PresetVol addr v => .payload addr ([0x03, 0x04] ++ presetBytes v)
  | .cd4PresetAmt addr m => .payload addr ([0x04, 0x04] ++ presetBytes m)
  | .dc1Status addr ctrl len data => .body ([addr, ctrl, 0x81, len] ++ data)
  | .dc1Volamt addr ctrl len data => .body ([addr, ctrl, 0x81, len] ++ data)
  | .dc1Other addr ctrl len data => .body ([addr, ctrl, 0x81, len] ++ data)
  | .dc3Nozprice addr ctrl len data => .body ([addr, ctrl, 0x83, len] ++ data)
  | .rxIgnored addr ctrl tc len data => .body ([addr, ctrl, tc, len] ++ data)
  | .rx chunk => .input (.rx chunk)
  | .tick => .input .tick
  | .reset => .input .rst
  | .snap addr => .input (.snap addr)

/-- Byte `i` of a table word, byte 0 its least significant. -/
def tableByte (w i : Nat) : Byte := BitVec.ofNat 8 (w / 256 ^ i)

/-- The encoded form an opcode-table word stands for (log entry 9). The table numbers a `HOSTCMD` word over `CMD`, a
`WIRE_OUT` word over the payload bytes and a `WIRE_IN` word over `[TRANS, LEN, data[0]]`, both big-endian (R90), and
gives a `PORT` row no bits. What the word has no bits for is 0: the operand words, the address, the CTRL byte, and the
data bytes after `data[0]` up to the nine of the longest fixed layout (R9). -/
def tableCode (nbits w : Nat) : Option Code :=
  if nbits = 32 then some (.input (.cmd (BitVec.ofNat 32 w) 0 0))
  else if nbits = 24 then
    match decodePayload 0 [tableByte w 2, tableByte w 1, tableByte w 0] with
    | .ok _ => some (.payload 0 [tableByte w 2, tableByte w 1, tableByte w 0])
    | .error _ => some (.body ([0, 0, tableByte w 2, tableByte w 1, tableByte w 0] ++ List.replicate 8 0))
  else if nbits = 48 then
    some (.payload 0
      [tableByte w 5, tableByte w 4, tableByte w 3, tableByte w 2, tableByte w 1, tableByte w 0])
  else if nbits ≤ 8 then some (.input (.rx []))
  else none

/-- The instruction the decoder reads from an opcode-table word. -/
def decodeTableWord (nbits w : Nat) : Option Instr :=
  match tableCode nbits w with
  | some c => (decode c).toOption
  | none => none

end Sys2Proof
end

