-- ==== Sys2Proof/Machine/Parser.lean ====
section
/-! DEFINITION. The frame parser (43_frame_parser.md R170 to R189): the meanings of the received forms, the decoding of
one candidate frame, the receive state machine, and RX. -/

namespace Sys2Proof.Machine

/-- DC1.STATUS (R180). -/
def execDc1Status (addr _ctrl _len : Byte) (data : List Byte) (s : State) : Host.Outcome State Fault Refusal :=
  .next (s.deliver addr (deltaStatus data))

/-- DC1.VOLAMT (R181). -/
def execDc1Volamt (addr _ctrl _len : Byte) (data : List Byte) (s : State) : Host.Outcome State Fault Refusal :=
  .next (s.deliver addr (deltaVolamt data))

/-- DC1.OTHER (R182). -/
def execDc1Other (addr _ctrl _len : Byte) (data : List Byte) (s : State) : Host.Outcome State Fault Refusal :=
  .next (s.deliver addr (deltaOther data))

/-- DC3.NOZPRICE (R183). -/
def execDc3Nozprice (addr _ctrl _len : Byte) (data : List Byte) (s : State) : Host.Outcome State Fault Refusal :=
  .next (s.deliver addr (deltaNozprice s.cfg.priceLimit data))

/-- RX.IGNORED (R184). -/
def execRxIgnored (addr _ctrl _trans _len : Byte) (_data : List Byte) (s : State) :
    Host.Outcome State Fault Refusal :=
  .next (s.deliver addr (.error .ignored))

/-- What a body of a given form supplies (R180 to R184). -/
def formDelta (limit : Option Nat) (form : WireForm) (data : List Byte) : Except DropReason Entry :=
  match form with
  | .dc1Status => deltaStatus data
  | .dc1Volamt => deltaVolamt data
  | .dc1Other => deltaOther data
  | .dc3Nozprice => deltaNozprice limit data
  | .ignored => .error .ignored

/-- Destructuring and dispatch of a body whose CRC matched (R174, R179): the address and the delta, or the reason the
frame is dropped. -/
def inspectBody (limit : Option Nat) (body : List Byte) : Except DropReason (Byte × Entry) :=
  match body with
  | addr :: _ctrl :: tc :: len :: data =>
    match formDelta limit (classify tc len data) data with
    | .ok d => .ok (addr, d)
    | .error r => .error r
  | _ => .error .missing

/-- The checks of `DecodeFrame(f)` in their order (R174 to R184). The ETX byte, `f[n-2]`, is not read (R187). -/
def inspectFrame (limit : Option Nat) (f : List Byte) : Except DropReason (Byte × Entry) :=
  if f.length < minFrame then .error .short
  else
    match f.drop (f.length - 4) with
    | lo :: hi :: _ =>
      if crc16 (f.take (f.length - 4)) ≠ trailerValue lo hi then .error .crc
      else inspectBody limit (f.take (f.length - 4))
    | _ => .error .short

/-- `DecodeFrame(f)` (R174): merge and report, or drop. -/
def State.decodeFrame (s : State) (f : List Byte) : State :=
  match inspectFrame s.cfg.priceLimit f with
  | .ok (addr, d) => s.report addr d
  | .error _ => s

/-- `RxByte(b)` (R171 to R173). -/
def rxByte (s : State) (b : Byte) : State :=
  match s.rxState with
  | .collecting =>
    if b = frameEnd then { s with buf := [] }.decodeFrame (s.buf ++ [b])
    else if s.buf.length = s.cfg.bufCap - 1 then { s with buf := [], rxState := .discard }
    else { s with buf := s.buf ++ [b] }
  | .discard => if b = frameEnd then { s with rxState := .collecting } else s

/-- RX: the bytes of a chunk in arrival order, in one step (R170). -/
def execRx (chunk : List Byte) (s : State) : Host.Outcome State Fault Refusal := .next (chunk.foldl rxByte s)

end Sys2Proof.Machine
end

