-- ==== Sys2Proof/Machine/Scheduler.lean ====
section
/-! DEFINITION. The poll scheduler, the SNAP read and the block reset (44_scheduler_state.md R210 to R219;
70_reset_and_hazards.md R260). -/

namespace Sys2Proof.Machine

/-- TICK: one CD1.STATUS frame to every pump address, ascending (R210). -/
def execTick (s : State) : Host.Outcome State Fault Refusal :=
  .next (pollAddresses.foldl (fun s addr => s.txFrame addr payloadStatus) s)

/-- SNAP: the entry goes to the host, and nothing of the block changes (R59, R215). -/
def execSnap (addr : Byte) (s : State) : Host.Outcome State Fault Refusal :=
  .next { s with responses := s.responses ++ [.snap addr (snapLookup s.snap addr)] }

/-- RESET: the four pieces of the block's state return to their reset values; the streams and the configuration stay
(R260). -/
def execReset (s : State) : Host.Outcome State Fault Refusal :=
  .next { s with rxState := .collecting, buf := [], snap := [], result := 0x00 }

end Sys2Proof.Machine
end

