-- ==== Sys2Proof/Machine/WireOut.lean ====
section
/-! DEFINITION. The frames the block sends, one instruction per payload (30_encoding.md R78 to R81; 42_frame_builder.md
R140). No input of the block carries one of them: host commands and TICK send them (R7, R70; log entry 8). -/

namespace Sys2Proof.Machine

/-- CD1.STATUS (R78). -/
def execCd1Status (addr : Byte) (s : State) : Host.Outcome State Fault Refusal :=
  .next (s.txFrame addr payloadStatus)

/-- CD1.RESET (R78). -/
def execCd1Reset (addr : Byte) (s : State) : Host.Outcome State Fault Refusal :=
  .next (s.txFrame addr payloadReset)

/-- CD1.AUTHORIZE (R78). -/
def execCd1Authorize (addr : Byte) (s : State) : Host.Outcome State Fault Refusal :=
  .next (s.txFrame addr payloadAuthorize)

/-- CD1.STOP (R78). -/
def execCd1Stop (addr : Byte) (s : State) : Host.Outcome State Fault Refusal :=
  .next (s.txFrame addr payloadStop)

/-- CD2.NOZZLE (R79). -/
def execCd2Nozzle (addr nozzle : Byte) (s : State) : Host.Outcome State Fault Refusal :=
  .next (s.txFrame addr (payloadNozzle nozzle))

/-- CD3.PRESET_VOL (R80); a volume that does not fit raises ERR_OVERFLOW (R121; log entry 10). -/
def execCd3PresetVol (addr : Byte) (volume : Nat) (s : State) : Host.Outcome State Fault Refusal :=
  match payloadPreset 0x03 volume with
  | .ok p => .next (s.txFrame addr p)
  | .error e => .next (s.raiseError e)

/-- CD4.PRESET_AMT (R81); an amount that does not fit raises ERR_OVERFLOW (R121; log entry 10). -/
def execCd4PresetAmt (addr : Byte) (amount : Nat) (s : State) : Host.Outcome State Fault Refusal :=
  match payloadPreset 0x04 amount with
  | .ok p => .next (s.txFrame addr p)
  | .error e => .next (s.raiseError e)

end Sys2Proof.Machine
end

