-- ==== Sys2Proof/Machine/Dispatch.lean ====
section
/-! DEFINITION. One arm per instruction of the opcode table. -/

namespace Sys2Proof.Machine

def exec (i : Instr) (s : State) : Host.Outcome State Fault Refusal :=
  match i with
  -- HOSTCMD
  | .requestStatus addr => Sys2Proof.Machine.execRequestStatus addr s
  | .stop addr => Sys2Proof.Machine.execStop addr s
  | .pumpReset addr => Sys2Proof.Machine.execPumpReset addr s
  | .authorize addr nozzle volume amount => Sys2Proof.Machine.execAuthorize addr nozzle volume amount s
  -- WIRE_OUT
  | .cd1Status addr => Sys2Proof.Machine.execCd1Status addr s
  | .cd1Reset addr => Sys2Proof.Machine.execCd1Reset addr s
  | .cd1Authorize addr => Sys2Proof.Machine.execCd1Authorize addr s
  | .cd1Stop addr => Sys2Proof.Machine.execCd1Stop addr s
  | .cd2Nozzle addr nozzle => Sys2Proof.Machine.execCd2Nozzle addr nozzle s
  | .cd3PresetVol addr volume => Sys2Proof.Machine.execCd3PresetVol addr volume s
  | .cd4PresetAmt addr amount => Sys2Proof.Machine.execCd4PresetAmt addr amount s
  -- WIRE_IN
  | .dc1Status addr ctrl len data => Sys2Proof.Machine.execDc1Status addr ctrl len data s
  | .dc1Volamt addr ctrl len data => Sys2Proof.Machine.execDc1Volamt addr ctrl len data s
  | .dc1Other addr ctrl len data => Sys2Proof.Machine.execDc1Other addr ctrl len data s
  | .dc3Nozprice addr ctrl len data => Sys2Proof.Machine.execDc3Nozprice addr ctrl len data s
  | .rxIgnored addr ctrl tc len data => Sys2Proof.Machine.execRxIgnored addr ctrl tc len data s
  -- PORT
  | .rx chunk => Sys2Proof.Machine.execRx chunk s
  | .tick => Sys2Proof.Machine.execTick s
  | .reset => Sys2Proof.Machine.execReset s
  | .snap addr => Sys2Proof.Machine.execSnap addr s

end Sys2Proof.Machine
end

