-- ==== Sys2Proof/Machine/Fetch.lean ====
section
/-! DEFINITION. Taking the next input, and where an opcode-table word is placed so that the next step runs it
(00_scope.md R10; 20_memory.md R65; log entries 1, 2, 9). -/

namespace Sys2Proof.Machine

/-- The next input, and the state with it consumed; `none` when the environment has delivered nothing (R10, R65). -/
def fetchInput (s : State) : Option (Input × State) :=
  match s.inputs with
  | [] => none
  | i :: rest => some (i, { s with inputs := rest })

/-- A step with no input: the block does nothing, since it acts only on inputs (R10, R34; log entry 2). -/
def execIdle (s : State) : Host.Outcome State Fault Refusal := .next s

/-- The host command whose frames include a payload: the payloads of `WIRE_OUT` are sent by host commands only, and a
raw send does not exist (R7, R78 to R81; log entry 8). -/
def commandSending (addr : Byte) (payload : List Byte) : Option Instr :=
  match decodePayload addr payload with
  | .ok (.cd1Status a) => some (.requestStatus a)
  | .ok (.cd1Reset a) => some (.pumpReset a)
  | .ok (.cd1Stop a) => some (.stop a)
  | .ok (.cd1Authorize a) => some (.authorize a 1 none none)
  | .ok (.cd2Nozzle a n) => some (.authorize a n none none)
  | .ok (.cd3PresetVol a v) => some (.authorize a 1 (some (BitVec.ofNat 32 v)) none)
  | .ok (.cd4PresetAmt a m) => some (.authorize a 1 none (some (BitVec.ofNat 32 m)))
  | _ => none

/-- Put an input in front of every waiting one. -/
def State.deliverNext (s : State) (i : Input) : State := { s with inputs := i :: s.inputs }

/-- Place an encoded instruction so that the next step runs it: an input in front of the others; for a `WIRE_OUT`
payload the host command that sends it; for a `WIRE_IN` body one chunk with its whole frame, received by an empty
buffer (log entry 9). -/
def State.place (s : State) (c : Code) : State :=
  match c with
  | .input i => s.deliverNext i
  | .payload addr bytes =>
    match commandSending addr bytes with
    | some i =>
      match encode i with
      | .input x => s.deliverNext x
      | _ => s
    | none => s
  | .body bytes => { s with rxState := .collecting, buf := [] }.deliverNext (.rx (closeFrame bytes))

/-- Place an opcode-table word (log entry 9). -/
def State.placeTableWord (s : State) (nbits w : Nat) : State :=
  match tableCode nbits w with
  | some c => s.place c
  | none => s

end Sys2Proof.Machine
end

