-- ==== Sys2Proof/Machine/Step.lean ====
section
/-! DEFINITION. One step: one input, processed atomically (20_memory.md R58, R60). -/

namespace Sys2Proof.Machine

/-- One step. A configuration with `BUF_CAP` below 17 is refused (R9; log entry 5). Else the next input is consumed,
decoded and executed; a command word that is no instruction ends with ERR_ILLEGAL (R232). -/
def step (s : State) : Host.Outcome State Fault Refusal :=
  if s.cfg.bufCap < 17 then .refused (.configRejected s.cfg.bufCap)
  else
    match fetchInput s with
    | none => execIdle s
    | some (input, rest) =>
      match decodeInput input with
      | .ok i => exec i rest
      | .error _ => execIllegal rest

/-- The state whose next step runs the instruction of an opcode-table word (log entry 9). -/
def State.withFetchWord (s : State) (nbits w : Nat) : State := s.placeTableWord nbits w

end Sys2Proof.Machine
end

