-- ==== Sys2Proof/Machine/Assembler.lean ====
section
/-! DEFINITION. The assembler of the spec's test programs: one line, one input (30_encoding.md R88, R89; log entry 15). -/

namespace Sys2Proof.Machine

/-- One line: the eight inputs of R88 and the pseudo-instructions of R89. -/
inductive AsmLine where
  /-- `REQUEST_STATUS <addr>`. -/
  | requestStatus (addr : Byte)
  /-- `AUTHORIZE <addr> [, nozzle=<n>] [, volume=<h>] [, amount=<h>]`. -/
  | authorize (addr : Byte) (nozzle : Option Byte) (volume amount : Option Word32)
  /-- `STOP <addr>`. -/
  | stop (addr : Byte)
  /-- `PUMP_RESET <addr>`. -/
  | pumpReset (addr : Byte)
  /-- `RX <b0> <b1> ...`. -/
  | rx (chunk : List Byte)
  /-- `TICK`. -/
  | tick
  /-- `RESET`. -/
  | reset
  /-- `SNAP <addr>`. -/
  | snap (addr : Byte)
  /-- `CMDW <cmd>, <opa>, <opb>`: raw words, legal or not. -/
  | cmdw (cmd opa opb : Word32)
  /-- `POLL`, the same as `TICK`. -/
  | poll
  /-- `RXF <addr>, <trans>, <len>, <d0> ... [; ctrl=<c>]`: the chunk of the frame a pump would send. -/
  | rxf (addr tc len : Byte) (data : List Byte) (ctrl : Option Byte)
deriving DecidableEq, Repr

/-- The input a line assembles to: the nozzle is 1 where none is given, an absent preset leaves its presence bit and its
operand word 0, and a frame of `RXF` has CTRL 0x11 where none is given (R88, R89). -/
def assemble : AsmLine → Input
  | .requestStatus addr => .cmd (commandWord 0x01 addr 0 false false) 0 0
  | .authorize addr nozzle volume amount =>
    .cmd (commandWord 0x02 addr (nozzle.getD 1) volume.isSome amount.isSome) (volume.getD 0) (amount.getD 0)
  | .stop addr => .cmd (commandWord 0x03 addr 0 false false) 0 0
  | .pumpReset addr => .cmd (commandWord 0x04 addr 0 false false) 0 0
  | .rx chunk => .rx chunk
  | .tick => .tick
  | .reset => .rst
  | .snap addr => .snap addr
  | .cmdw cmd opa opb => .cmd cmd opa opb
  | .poll => .tick
  | .rxf addr tc len data ctrl => .rx (closeFrame ([addr, ctrl.getD ctrlOut, tc, len] ++ data))

/-- The inputs of a program, in the order written (R88). -/
def assembleProgram (lines : List AsmLine) : List Input := lines.map assemble

/-- The words of a text, cut at blanks, commas and tabs; `word` is the word being read. -/
def asmWords (word : List Char) : List Char → List (List Char)
  | [] => if word.isEmpty then [] else [word]
  | c :: cs =>
    if c = ' ' ∨ c = ',' ∨ c = '\t' then
      if word.isEmpty then asmWords [] cs else word :: asmWords [] cs
    else asmWords (word ++ [c]) cs

/-- The text before the first `;` and the text after it (R88). -/
def asmSplitComment : List Char → List Char × List Char
  | [] => ([], [])
  | c :: cs => if c = ';' then ([], cs) else (c :: (asmSplitComment cs).1, (asmSplitComment cs).2)

/-- The value of a digit in a base of at most 16. -/
def asmDigit (base : Nat) (c : Char) : Option Nat :=
  let d :=
    if '0' ≤ c ∧ c ≤ '9' then c.toNat - '0'.toNat
    else if 'a' ≤ c ∧ c ≤ 'f' then c.toNat - 'a'.toNat + 10
    else if 'A' ≤ c ∧ c ≤ 'F' then c.toNat - 'A'.toNat + 10
    else 16
  if d < base then some d else none

/-- The digits of a number, continuing from `v`. -/
def asmDigits (base v : Nat) : List Char → Option Nat
  | [] => some v
  | c :: cs =>
    match asmDigit base c with
    | some d => asmDigits base (v * base + d) cs
    | none => none

/-- A number in decimal, or in hexadecimal with `0x` (R88). -/
def asmNumber : List Char → Option Nat
  | '0' :: 'x' :: c :: cs => asmDigits 16 0 (c :: cs)
  | c :: cs => asmDigits 10 0 (c :: cs)
  | [] => none

/-- A number that fits `n` bits. -/
def asmBits (n : Nat) (w : List Char) : Option (BitVec n) :=
  match asmNumber w with
  | some v => if v < 2 ^ n then some (BitVec.ofNat n v) else none
  | none => none

/-- A list of bytes. -/
def asmBytes : List (List Char) → Option (List Byte)
  | [] => some []
  | w :: ws =>
    match asmBits 8 w, asmBytes ws with
    | some b, some bs => some (b :: bs)
    | _, _ => none

/-- The text of a word after `key`, if it begins with `key`. -/
def asmAfter : List Char → List Char → Option (List Char)
  | [], w => some w
  | k :: ks, c :: cs => if k = c then asmAfter ks cs else none
  | _ :: _, [] => none

/-- The options of AUTHORIZE, each at most once (R88). -/
def asmOptions (n : Option Byte) (v m : Option Word32) :
    List (List Char) → Option (Option Byte × Option Word32 × Option Word32)
  | [] => some (n, v, m)
  | w :: ws =>
    match asmAfter "nozzle=".toList w, asmAfter "volume=".toList w, asmAfter "amount=".toList w with
    | some t, _, _ =>
      match n, asmBits 8 t with
      | none, some x => asmOptions (some x) v m ws
      | _, _ => none
    | none, some t, _ =>
      match v, asmBits 32 t with
      | none, some x => asmOptions n (some x) m ws
      | _, _ => none
    | none, none, some t =>
      match m, asmBits 32 t with
      | none, some x => asmOptions n v (some x) ws
      | _, _ => none
    | none, none, none => none

/-- The `ctrl=<c>` option of RXF, read from the text after the `;` (R89); any other text there is a comment. -/
def asmCtrl (comment : List Char) : Option (Option Byte) :=
  match asmWords [] comment with
  | w :: _ =>
    match asmAfter "ctrl=".toList w with
    | some t => (asmBits 8 t).map some
    | none => some none
  | [] => some none

/-- A line of one address operand. -/
def asmOneByte (k : Byte → AsmLine) (ws : List (List Char)) : Option AsmLine :=
  match ws with
  | [w] => (asmBits 8 w).map k
  | _ => none

/-- A line from its words and its comment text. -/
def asmLine (ws : List (List Char)) (comment : List Char) : Option AsmLine :=
  match ws with
  | [] => none
  | op :: args =>
    if op = "REQUEST_STATUS".toList then asmOneByte .requestStatus args
    else if op = "STOP".toList then asmOneByte .stop args
    else if op = "PUMP_RESET".toList then asmOneByte .pumpReset args
    else if op = "SNAP".toList then asmOneByte .snap args
    else if op = "AUTHORIZE".toList then
      match args with
      | a :: os =>
        match asmBits 8 a, asmOptions none none none os with
        | some addr, some (n, v, m) => some (.authorize addr n v m)
        | _, _ => none
      | [] => none
    else if op = "RX".toList then (asmBytes args).map .rx
    else if op = "TICK".toList then if args = [] then some .tick else none
    else if op = "POLL".toList then if args = [] then some .poll else none
    else if op = "RESET".toList then if args = [] then some .reset else none
    else if op = "CMDW".toList then
      match args with
      | [c, a, b] =>
        match asmBits 32 c, asmBits 32 a, asmBits 32 b with
        | some cmd, some opa, some opb => some (.cmdw cmd opa opb)
        | _, _, _ => none
      | _ => none
    else if op = "RXF".toList then
      match asmBytes args, asmCtrl comment with
      | some (addr :: tc :: len :: data), some ctrl => some (.rxf addr tc len data ctrl)
      | _, _ => none
    else none

/-- One line of text (R88): `none` where it is no line of the syntax, `some none` where it is blank or only a comment. -/
def asmParse (text : List Char) : Option (Option AsmLine) :=
  match asmWords [] (asmSplitComment text).1 with
  | [] => some none
  | ws => (asmLine ws (asmSplitComment text).2).map some

end Sys2Proof.Machine
end

