-- ==== Sys2Proof/Safety.lean ====
section
/-! DEFINITION. What counts as a safe run: the invariants the rules state of the machine between steps, and runs that
never stop. -/

namespace Sys2Proof.Machine

/-- The values of an entry lie in the ranges of R25. -/
def Entry.inRange (limit : Option Nat) (e : Entry) : Bool :=
  e.volume.all (· ≤ presetMax) && e.amount.all (· ≤ presetMax) && e.price.all (priceAllowed limit)

/-- The invariants of the receive buffer (R23). -/
abbrev State.RxOk (s : State) : Prop :=
  s.buf.length ≤ s.cfg.bufCap - 1 ∧ frameEnd ∉ s.buf ∧ (s.rxState = .discard → s.buf = [])

/-- The snapshot table has its canonical form, and every entry lies in its ranges (R25). -/
abbrev State.SnapOk (s : State) : Prop :=
  s.snap.wf ∧ ∀ c ∈ s.snap, c.2.inRange s.cfg.priceLimit = true

/-- `RESULT` holds one of the four codes (R27, R75). -/
abbrev State.ResultOk (s : State) : Prop :=
  s.result = 0x00 ∨ s.result = 0x01 ∨ s.result = 0x02 ∨ s.result = 0x03

/-- Every event carries a non-empty delta, and an entry that holds the fields of that delta (R31, R185, R186). -/
abbrev State.EventsOk (s : State) : Prop :=
  ∀ ev ∈ s.events, ev.delta ≠ Entry.empty ∧ ev.snap.merge ev.delta = ev.snap

/-- What holds of the machine between steps. -/
structure State.Inv (s : State) : Prop where
  rx : s.RxOk
  snap : s.SnapOk
  result : s.ResultOk
  events : s.EventsOk

/-- A run of any length from `s` goes on: no step faults and none is refused. -/
def State.Safe (s : State) : Prop := ∀ k, ∃ t, Sys2Proof.core.run k s = .next t

end Sys2Proof.Machine
end

