-- ==== Sys2Proof/Certificates/Slice0/Obligations.lean ====
section
/-! DEFINITION. The statements for the provers, and the rules' own formulas they are stated with. Where a statement speaks
of the waiting inputs or of the responses, these lists are the model's own (log entries 1 and 14), and where it covers a
step with no input waiting, that step is the model's choice (log entry 2). -/

open Sys2Proof Sys2Proof.Machine

namespace Sys2Proof.Rules

/-- A frame as R76 writes it: the address, CTRL 0x11, the payload, the CRC low byte and high byte, 0x03, 0xFA. -/
def frame (a : Byte) (payload : List Byte) : List Byte :=
  [a, 0x11] ++ payload ++
    [BitVec.ofNat 8 ((crc16 ([a, 0x11] ++ payload)).toNat % 256),
     BitVec.ofNat 8 ((crc16 ([a, 0x11] ++ payload)).toNat / 256), 0x03, 0xFA]

/-- Two decimal digits in one byte, as a number: sixteen times the tens plus the units (R54). -/
def pair (p : Nat) : Byte := BitVec.ofNat 8 (16 * (p / 10 % 10) + p % 10)

/-- The four BCD bytes of a value below 10^8, most significant pair first (R54, R120). -/
def bcd4 (v : Nat) : List Byte := [pair (v / 1000000), pair (v / 10000), pair (v / 100), pair v]

/-- The preset payload of CD3 (`t` 3) or CD4 (`t` 4), none when the preset is absent (R144). -/
def preset (t : Byte) (p : Option Word32) : List (List Byte) :=
  match p with
  | none => []
  | some w => [[t, 0x04] ++ bcd4 w.toNat]

/-- The frames of AUTHORIZE in their fixed order (R144). -/
def authorizeFrames (a n : Byte) (v m : Option Word32) : List Byte :=
  (([[0x02, 0x01, n]] ++ preset 0x03 v ++ preset 0x04 m ++ [[0x01, 0x01, 0x06]]).map (frame a)).flatten

/-- The end of a host command: its code in `RESULT` and to the host, its bytes on the TX stream (R27, R142). -/
def finish (s : State) (code : Byte) (bytes : List Byte) : State :=
  { s with result := code, tx := s.tx ++ bytes, responses := s.responses ++ [.result code] }

/-- The pseudocode of R142, with R143 to R146, over the numbers of the command word. -/
def hostCommand (s : State) (cmd opa opb : Word32) : State :=
  let op := cmd.toNat % 256
  let a := cmd.toNat / 2 ^ 8 % 256
  let addr : Byte := BitVec.ofNat 8 a
  let noz : Byte := BitVec.ofNat 8 (cmd.toNat / 2 ^ 16)
  let hv := cmd.toNat / 2 ^ 24 % 2 = 1
  let ha := cmd.toNat / 2 ^ 25 % 2 = 1
  if cmd.toNat / 2 ^ 26 ≠ 0 ∨ ¬(op = 1 ∨ op = 2 ∨ op = 3 ∨ op = 4) then finish s 0x01 []
  else if s.cfg.checkAddr = true ∧ (a < 0x50 ∨ 0x6F < a) then finish s 0x03 []
  else if op = 2 ∧ hv ∧ 99999999 < opa.toNat then finish s 0x02 []
  else if op = 2 ∧ ha ∧ 99999999 < opb.toNat then finish s 0x02 []
  else if op = 1 then finish s 0x00 (frame addr [0x01, 0x01, 0x00])
  else if op = 2 then
    finish s 0x00 (authorizeFrames addr noz (if hv then some opa else none) (if ha then some opb else none))
  else if op = 3 then finish s 0x00 (frame addr [0x01, 0x01, 0x08])
  else finish s 0x00 (frame addr [0x01, 0x01, 0x05])

/-- An address a host command is sent to: any, or with `CHECK_ADDR` one of 0x50 to 0x6F (R142). -/
def sendable (s : State) (a : Byte) : Prop := s.cfg.checkAddr = true → 0x50 ≤ a.toNat ∧ a.toNat ≤ 0x6F

/-- The payloads the block ever sends (R78 to R81). -/
def catalogue (p : List Byte) : Prop :=
  p = [0x01, 0x01, 0x00] ∨ p = [0x01, 0x01, 0x05] ∨ p = [0x01, 0x01, 0x06] ∨ p = [0x01, 0x01, 0x08] ∨
    (∃ n, p = [0x02, 0x01, n]) ∨ (∃ v, v ≤ 99999999 ∧ (p = [0x03, 0x04] ++ bcd4 v ∨ p = [0x04, 0x04] ++ bcd4 v))

/-- What a report of `d` at address `a` does: the entry of `a` gets the fields of `d` and keeps its others, every other
entry reads as before, one event follows, and nothing else changes (R185, R186). -/
def reported (s t : State) (a : Byte) (d : Entry) : Prop :=
  (∀ x, snapLookup t.snap x =
    if x = a then
      { status := if d.status = none then (snapLookup s.snap a).status else d.status
        volume := if d.volume = none then (snapLookup s.snap a).volume else d.volume
        amount := if d.amount = none then (snapLookup s.snap a).amount else d.amount
        nozzle := if d.nozzle = none then (snapLookup s.snap a).nozzle else d.nozzle
        inUse := if d.inUse = none then (snapLookup s.snap a).inUse else d.inUse
        price := if d.price = none then (snapLookup s.snap a).price else d.price }
    else snapLookup s.snap x) ∧
  t.events = s.events ++ [{ addr := a, delta := d, snap := snapLookup t.snap a }] ∧
  t = { s with snap := t.snap, events := t.events }

/-- Run instructions one after another. -/
def execAll : List Instr → State → Host.Outcome State Fault Refusal
  | [], s => .next s
  | i :: is, s =>
    match exec i s with
    | .next t => execAll is t
    | .fault f => .fault f
    | .refused r => .refused r

/-- The `WIRE_OUT` instructions a host command sends (R143 to R146). -/
def wireForms : Instr → List Instr
  | .requestStatus a => [.cd1Status a]
  | .stop a => [.cd1Stop a]
  | .pumpReset a => [.cd1Reset a]
  | .authorize a n v m =>
    [.cd2Nozzle a n] ++ (v.map fun w => Instr.cd3PresetVol a w.toNat).toList ++
      (m.map fun w => Instr.cd4PresetAmt a w.toNat).toList ++ [.cd1Authorize a]
  | _ => []

/-- The kinds of instruction R59 tells apart by what they change. -/
inductive Kind where
  /-- Host commands, and the preset frames that can overflow: TX, `RESULT` and the response. -/
  | command
  /-- The other frames sent, and TICK: TX only. -/
  | send
  /-- Received frames, and RX: `buf`, `state`, `snap` and events. -/
  | receive
  /-- Block reset: the four pieces of the block's state. -/
  | reset
  /-- SNAP: the response only. -/
  | read
deriving DecidableEq, Repr

/-- The kind of each instruction. -/
def kind : Instr → Kind
  | .requestStatus _ => .command
  | .stop _ => .command
  | .pumpReset _ => .command
  | .authorize _ _ _ _ => .command
  | .cd1Status _ => .send
  | .cd1Reset _ => .send
  | .cd1Authorize _ => .send
  | .cd1Stop _ => .send
  | .cd2Nozzle _ _ => .send
  | .cd3PresetVol _ _ => .command
  | .cd4PresetAmt _ _ => .command
  | .dc1Status _ _ _ _ => .receive
  | .dc1Volamt _ _ _ _ => .receive
  | .dc1Other _ _ _ _ => .receive
  | .dc3Nozprice _ _ _ _ => .receive
  | .rxIgnored _ _ _ _ _ => .receive
  | .rx _ => .receive
  | .tick => .send
  | .reset => .reset
  | .snap _ => .read

/-- A frame that never meets the delimiter before its end, fits the buffer, and finds the receiver empty and collecting
(R189). -/
def receivable (s : State) (body : List Byte) (e : Byte) : Prop :=
  s.rxState = .collecting ∧ s.buf = [] ∧ body.length + 4 ≤ s.cfg.bufCap ∧
    (0xFA : Byte) ∉ body ++ [crcLow (crc16 body), crcHigh (crc16 body), e]

end Sys2Proof.Rules

open Sys2Proof.Rules

/-- Decoding the encoding of any well-formed instruction gives it back, every operand with it (R70 to R90). -/
def Obligations.DecodeOfEncodeIsTheInstruction : Prop :=
  ∀ i : Instr, i.WellFormed → decode (encode i) = .ok i

/-- Whatever decodes is a well-formed instruction, and a payload, a body or a port input is the encoding of what it
decodes to: no bit of it is dropped. -/
def Obligations.DecodedFormsAreWellFormedAndReencode : Prop :=
  ∀ (c : Code) (i : Instr), decode c = .ok i →
    i.WellFormed ∧ decode (encode i) = .ok i ∧
      ((∀ cmd opa opb, c ≠ .input (.cmd cmd opa opb)) → encode i = c)

/-- A few words written out from R71, R78 to R83 decode to the instructions they stand for. -/
def Obligations.KnownWordsDecode : Prop :=
  decode (.input (.cmd 0x00005501 0 0)) = .ok (.requestStatus 0x55) ∧
  decode (.input (.cmd 0x03025502 4000 250000)) = .ok (.authorize 0x55 2 (some 4000) (some 250000)) ∧
  decode (.payload 0x55 [0x03, 0x04, 0x00, 0x00, 0x40, 0x00]) = .ok (.cd3PresetVol 0x55 4000) ∧
  decode (.body [0x52, 0x11, 0x81, 0x02, 0x00, 0x04]) = .ok (.dc1Status 0x52 0x11 0x02 [0x00, 0x04]) ∧
  decode (.body [0x52, 0x11, 0x81, 0x01, 0x00, 0x04]) = .ok (.dc1Other 0x52 0x11 0x01 [0x00, 0x04]) ∧
  decode (.input .rst) = .ok .reset

/-- A step takes the next input, and where it decodes to `i` it runs `i` on the state with that input consumed; nothing
is added around `exec` (R58, R60, R65). The input list is the model's own (log entry 1). -/
def Obligations.StepRunsTheDecodedInput : Prop :=
  ∀ (s : State) (x : Input) (rest : List Input) (i : Instr),
    17 ≤ s.cfg.bufCap → s.inputs = x :: rest → decodeInput x = .ok i →
      step s = exec i { s with inputs := rest }

/-- A step with no input waiting changes nothing: the model's choice, log entry 2, for a block that acts only on inputs
(R10, R34). -/
def Obligations.StepWithoutInputIsIdle : Prop :=
  ∀ s : State, 17 ≤ s.cfg.bufCap → s.inputs = [] → step s = .next s

/-- A step stops on a configuration with `BUF_CAP` below 17, which R9 says to refuse, and on nothing else. Beyond R9 this
is the model's choice: the form of the refusal is log entry 5, that a step with no input waiting goes on is log entry 2,
and that no error stops the block is log entry 7, deduced from R240 and R241. -/
def Obligations.StepStopsOnlyOnASmallBuffer : Prop :=
  ∀ s : State,
    (s.cfg.bufCap < 17 → step s = .refused (.configRejected s.cfg.bufCap)) ∧
    (17 ≤ s.cfg.bufCap → ∃ t, step s = .next t)

/-- With an accepted configuration no run of any length stops. This is the model's choice: a run longer than its input
list goes on by idle steps, log entry 2, and that no error stops the block is log entry 7, deduced from R240 and R241. -/
def Obligations.AcceptedConfigurationNeverStops : Prop :=
  ∀ s : State, s.cfg.WellFormed → s.Safe

/-- R232: a command word with a reserved bit set or an unassigned opcode writes `RESULT <- 0x01` and nothing else. -/
def Obligations.IllegalCommandWordWritesOnlyResult : Prop :=
  ∀ (s : State) (cmd opa opb : Word32) (rest : List Input),
    17 ≤ s.cfg.bufCap → s.inputs = .cmd cmd opa opb :: rest →
    (cmd.toNat / 2 ^ 26 ≠ 0 ∨ cmd.toNat % 256 = 0 ∨ 5 ≤ cmd.toNat % 256) →
      step s = .next { s with inputs := rest, result := 0x01, responses := s.responses ++ [.result 0x01] }

/-- R142: a step on a CMD input is the pseudocode of the host-command step, with its checks in their order. -/
def Obligations.CommandStepFollowsTheHostCommandAlgorithm : Prop :=
  ∀ (s : State) (cmd opa opb : Word32) (rest : List Input),
    17 ≤ s.cfg.bufCap → s.inputs = .cmd cmd opa opb :: rest →
      step s = .next (hostCommand { s with inputs := rest } cmd opa opb)

/-- R148: a host command that fails writes only `RESULT`, and AUTHORIZE writes every frame or none. -/
def Obligations.FailedCommandWritesNoFrame : Prop :=
  ∀ (s : State) (cmd opa opb : Word32) (rest : List Input),
    17 ≤ s.cfg.bufCap → s.inputs = .cmd cmd opa opb :: rest →
      ∃ t, step s = .next t ∧
        (t.result ≠ 0x00 →
          t = { s with inputs := rest, result := t.result, responses := s.responses ++ [.result t.result] }) ∧
        (cmd.toNat % 256 = 2 →
          t.tx = s.tx ∨
          t.tx = s.tx ++ authorizeFrames (BitVec.ofNat 8 (cmd.toNat / 2 ^ 8)) (BitVec.ofNat 8 (cmd.toNat / 2 ^ 16))
            (if cmd.toNat / 2 ^ 24 % 2 = 1 then some opa else none)
            (if cmd.toNat / 2 ^ 25 % 2 = 1 then some opb else none))

/-- REQUEST_STATUS, STOP and PUMP_RESET to an address that may be sent to append their one frame, write `RESULT <- 0x00`,
return it, and change nothing else (R143, R145, R146). -/
def Obligations.SingleFrameCommandsComplete : Prop :=
  ∀ (s : State) (a : Byte), sendable s a →
    exec (.requestStatus a) s = .next (finish s 0x00 (frame a [0x01, 0x01, 0x00])) ∧
    exec (.stop a) s = .next (finish s 0x00 (frame a [0x01, 0x01, 0x08])) ∧
    exec (.pumpReset a) s = .next (finish s 0x00 (frame a [0x01, 0x01, 0x05]))

/-- AUTHORIZE with presets that fit appends its two, three or four frames in order, writes `RESULT <- 0x00`, returns it,
and changes nothing else (R144). -/
def Obligations.AuthorizeCompletes : Prop :=
  ∀ (s : State) (a n : Byte) (v m : Option Word32), sendable s a →
    (∀ w, v = some w → w.toNat ≤ 99999999) → (∀ w, m = some w → w.toNat ≤ 99999999) →
      exec (.authorize a n v m) s = .next (finish s 0x00 (authorizeFrames a n v m))

/-- R234: AUTHORIZE with a preset above 99,999,999 writes `RESULT <- 0x02` and nothing else, at an address that passes the
address check made before it (R235). -/
def Obligations.AuthorizeOverflowWritesOnlyResult : Prop :=
  ∀ (s : State) (a n : Byte) (v m : Option Word32), sendable s a →
    ((∃ w, v = some w ∧ 99999999 < w.toNat) ∨ (∃ w, m = some w ∧ 99999999 < w.toNat)) →
      exec (.authorize a n v m) s =
        .next { s with result := 0x02, responses := s.responses ++ [.result 0x02] }

/-- R233: with `CHECK_ADDR` an address outside 0x50 to 0x6F gives `RESULT <- 0x03` and nothing else. With `CHECK_ADDR` and
an address of 0x50 to 0x6F, both ends included, and without `CHECK_ADDR`, ERR_ADDR is never raised, and every frame goes to
the given address. -/
def Obligations.AddressCheckRaisesErrAddr : Prop :=
  ∀ (s : State) (a n : Byte) (v m : Option Word32) (i : Instr),
    i = .requestStatus a ∨ i = .stop a ∨ i = .pumpReset a ∨ i = .authorize a n v m →
      (s.cfg.checkAddr = true → a.toNat < 0x50 ∨ 0x6F < a.toNat →
        exec i s = .next { s with result := 0x03, responses := s.responses ++ [.result 0x03] }) ∧
      (s.cfg.checkAddr = true → 0x50 ≤ a.toNat → a.toNat ≤ 0x6F →
        ∃ t ps, exec i s = .next t ∧ t.result ≠ 0x03 ∧ t.tx = s.tx ++ (ps.map (frame a)).flatten ∧
          (t.result = 0x00 → ps ≠ [])) ∧
      (s.cfg.checkAddr = false →
        ∃ t ps, exec i s = .next t ∧ t.result ≠ 0x03 ∧ t.tx = s.tx ++ (ps.map (frame a)).flatten ∧
          (t.result = 0x00 → ps ≠ []))

/-- The five frames with a fixed or one-byte payload append their bytes and change nothing else (R76, R78, R79, R140). -/
def Obligations.FixedWireFramesComplete : Prop :=
  ∀ (s : State) (a n : Byte),
    exec (.cd1Status a) s = .next { s with tx := s.tx ++ frame a [0x01, 0x01, 0x00] } ∧
    exec (.cd1Reset a) s = .next { s with tx := s.tx ++ frame a [0x01, 0x01, 0x05] } ∧
    exec (.cd1Authorize a) s = .next { s with tx := s.tx ++ frame a [0x01, 0x01, 0x06] } ∧
    exec (.cd1Stop a) s = .next { s with tx := s.tx ++ frame a [0x01, 0x01, 0x08] } ∧
    exec (.cd2Nozzle a n) s = .next { s with tx := s.tx ++ frame a [0x02, 0x01, n] }

/-- The two preset frames carry the four BCD bytes of their value, and change nothing but the TX stream (R80, R81). -/
def Obligations.PresetWireFramesComplete : Prop :=
  ∀ (s : State) (a : Byte) (v : Nat), v ≤ 99999999 →
    exec (.cd3PresetVol a v) s = .next { s with tx := s.tx ++ frame a ([0x03, 0x04] ++ bcd4 v) } ∧
    exec (.cd4PresetAmt a v) s = .next { s with tx := s.tx ++ frame a ([0x04, 0x04] ++ bcd4 v) }

/-- A preset frame whose value needs more than eight digits raises ERR_OVERFLOW and writes no byte (R120, R121). That the
error reaches `RESULT` from a single frame is the model's choice, log entry 10: the block sends these frames inside
AUTHORIZE only. -/
def Obligations.PresetWireFramesOverflow : Prop :=
  ∀ (s : State) (a : Byte) (v : Nat), 99999999 < v →
    exec (.cd3PresetVol a v) s = .next { s with result := 0x02, responses := s.responses ++ [.result 0x02] } ∧
    exec (.cd4PresetAmt a v) s = .next { s with result := 0x02, responses := s.responses ++ [.result 0x02] }

/-- A host command that passes its checks is the frames it sends, run one after another, and then OK (R61, R142 to
R146). -/
def Obligations.HostCommandsRunTheirWireForms : Prop :=
  ∀ (s : State) (a n : Byte) (v m : Option Word32) (i : Instr),
    i = .requestStatus a ∨ i = .stop a ∨ i = .pumpReset a ∨ i = .authorize a n v m → sendable s a →
    (∀ w, v = some w → w.toNat ≤ 99999999) → (∀ w, m = some w → w.toNat ≤ 99999999) →
      ∃ t, execAll (wireForms i) s = .next t ∧
        exec i s = .next { t with result := 0x00, responses := s.responses ++ [.result 0x00] }

/-- R210: TICK appends the 32 frames of CD1.STATUS to 0x50 to 0x6F ascending, 288 bytes, and writes nothing else. -/
def Obligations.TickSweepsEveryPumpAddress : Prop :=
  (∀ s : State, exec .tick s =
    .next { s with tx := s.tx ++
      ((List.range 32).map fun i => frame (BitVec.ofNat 8 (0x50 + i)) [0x01, 0x01, 0x00]).flatten }) ∧
  (((List.range 32).map fun i => frame (BitVec.ofNat 8 (0x50 + i)) [0x01, 0x01, 0x00]).flatten.length = 288) ∧
  frame 0x50 [0x01, 0x01, 0x00] = [0x50, 0x11, 0x01, 0x01, 0x00, 0x2C, 0x6D, 0x03, 0xFA] ∧
  frame 0x51 [0x01, 0x01, 0x00] = [0x51, 0x11, 0x01, 0x01, 0x00, 0x7D, 0xC7, 0x03, 0xFA] ∧
  frame 0x6F [0x01, 0x01, 0x00] = [0x6F, 0x11, 0x01, 0x01, 0x00, 0x3B, 0x04, 0x03, 0xFA]

/-- SNAP returns the entry of its address and has no side effect: only the response list, the model's own (log entry 14),
grows (R59, R215). -/
def Obligations.SnapReadReturnsTheEntry : Prop :=
  ∀ (s : State) (a : Byte),
    exec (.snap a) s = .next { s with responses := s.responses ++ [.snap a (snapLookup s.snap a)] }

/-- R260: block reset returns the receive state, the buffer, every field of every entry and `RESULT` to their reset
values, and leaves the streams and the configuration. -/
def Obligations.BlockResetClearsTheBlock : Prop :=
  ∀ s : State, ∃ t, exec .reset s = .next t ∧ t.rxState = .collecting ∧ t.buf = [] ∧
    (∀ a, snapLookup t.snap a =
      { status := none, volume := none, amount := none, nozzle := none, inUse := none, price := none }) ∧
    t.result = 0x00 ∧ t.tx = s.tx ∧ t.events = s.events ∧ t.cfg = s.cfg

/-- The power-up state is the state after block reset (R35, R261): its four pieces of state have the reset values. -/
def Obligations.PowerUpEqualsReset : Prop :=
  State.reset.rxState = .collecting ∧ State.reset.buf = [] ∧ State.reset.result = 0x00 ∧
    (∀ a, snapLookup State.reset.snap a =
      { status := none, volume := none, amount := none, nozzle := none, inUse := none, price := none }) ∧
    exec .reset State.reset = .next State.reset

/-- DC1.STATUS reports the status byte `data[1]` at its address, whatever its value (R84, R180, R185, R186). That the
instruction does so also with a `LEN` below 2 or a `data[0]` other than 0x00, which no frame decodes to (R82, R182), is the
model's choice, log entry 18. -/
def Obligations.StatusReportCompletes : Prop :=
  ∀ (s : State) (a c l b : Byte) (data : List Byte), data[1]? = some b →
    ∃ t, exec (.dc1Status a c l data) s = .next t ∧
      reported s t a
        { status := some b, volume := none, amount := none, nozzle := none, inUse := none, price := none }

/-- DC1.VOLAMT reports the volume in `data[1..5)` and the amount in `data[5..9)`, both together (R181, R185, R186). That
the instruction does so also with a `LEN` below 8 or a `data[0]` other than 0x04, which no frame decodes to (R82, R182), is
the model's choice, log entry 18. -/
def Obligations.VolumeReportCompletes : Prop :=
  ∀ (s : State) (a c l d0 : Byte) (v m : Nat) (more : List Byte), v ≤ 99999999 → m ≤ 99999999 →
    ∃ t, exec (.dc1Volamt a c l ([d0] ++ bcd4 v ++ bcd4 m ++ more)) s = .next t ∧
      reported s t a
        { status := none, volume := some v, amount := some m, nozzle := none, inUse := none, price := none }

/-- DC3.NOZPRICE reports bits [3:0] of `data[1]` as the nozzle, bit [4] as the in-use flag, and every byte from `data[2]`
as the price, where the price is packed decimal and at most `PRICE_LIMIT` (R83, R183, R185, R186). -/
def Obligations.NozzlePriceReportCompletes : Prop :=
  ∀ (s : State) (a c l d0 ns : Byte) (price : List Byte) (p : Nat),
    bcdDecode price = some p → (∀ limit, s.cfg.priceLimit = some limit → p ≤ limit) →
      ∃ t, exec (.dc3Nozprice a c l (d0 :: ns :: price)) s = .next t ∧
        reported s t a
          { status := none, volume := none, amount := none, nozzle := some (BitVec.ofNat 4 (ns.toNat % 16)),
            inUse := some (decide (ns.toNat / 16 % 2 = 1)), price := some p }

/-- The received forms that report nothing change nothing: DC1.OTHER and RX.IGNORED always; DC1.STATUS without `data[1]`;
DC1.VOLAMT with fewer than nine data bytes or a field that is no packed decimal; DC3.NOZPRICE with fewer than three data
bytes, a price that is no packed decimal, or one above `PRICE_LIMIT` (R175, R179 to R184). That this covers operands no frame
of the form decodes to (DC1.OTHER with the `data[0]` and `LEN` of another form, RX.IGNORED with `TRANS` 0x81 or 0x83, the
DC1 forms with any `LEN` and `data[0]`) is the model's choice, log entry 18. -/
def Obligations.DroppedReportsChangeNothing : Prop :=
  ∀ (s : State) (a c l tc : Byte) (data : List Byte),
    exec (.dc1Other a c l data) s = .next s ∧
    exec (.rxIgnored a c tc l data) s = .next s ∧
    (data.length < 2 → exec (.dc1Status a c l data) s = .next s) ∧
    (data.length < 9 ∨ bcdDecode ((data.drop 1).take 4) = none ∨ bcdDecode ((data.drop 5).take 4) = none →
      exec (.dc1Volamt a c l data) s = .next s) ∧
    (data.length < 3 ∨ bcdDecode (data.drop 2) = none ∨
        (∃ p limit, bcdDecode (data.drop 2) = some p ∧ s.cfg.priceLimit = some limit ∧ limit < p) →
      exec (.dc3Nozprice a c l data) s = .next s)

/-- One received byte: the five cases of the receive state machine that decode nothing or drop what they decode, and the
one that reports (R171 to R173). -/
def Obligations.ReceiveMachineFollowsItsRules : Prop :=
  ∀ (s : State) (b : Byte),
    (s.rxState = .collecting → b ≠ 0xFA → s.buf.length ≠ s.cfg.bufCap - 1 →
      exec (.rx [b]) s = .next { s with buf := s.buf ++ [b] }) ∧
    (s.rxState = .collecting → b ≠ 0xFA → s.buf.length = s.cfg.bufCap - 1 →
      exec (.rx [b]) s = .next { s with buf := [], rxState := .discard }) ∧
    (s.rxState = .discard → b = 0xFA → exec (.rx [b]) s = .next { s with rxState := .collecting }) ∧
    (s.rxState = .discard → b ≠ 0xFA → exec (.rx [b]) s = .next s) ∧
    (s.rxState = .collecting → b = 0xFA →
      (∀ why, inspectFrame s.cfg.priceLimit (s.buf ++ [b]) = .error why →
        exec (.rx [b]) s = .next { s with buf := [] }) ∧
      (∀ a d, inspectFrame s.cfg.priceLimit (s.buf ++ [b]) = .ok (a, d) →
        ∃ t, exec (.rx [b]) s = .next t ∧ reported { s with buf := [] } t a d))

/-- RX completes on every chunk, writes neither `RESULT` nor the TX stream, and only appends events (R27, R59, R170). -/
def Obligations.RxCompletesAndSendsNothing : Prop :=
  ∀ (s : State) (chunk : List Byte), ∃ t, exec (.rx chunk) s = .next t ∧
    s.events <+: t.events ∧
    t = { s with rxState := t.rxState, buf := t.buf, snap := t.snap, events := t.events }

/-- R170: however a byte sequence is split into chunks, one step each, the final state is that of the whole sequence as
one chunk. -/
def Obligations.ChunkBoundariesDoNotMatter : Prop :=
  ∀ (s : State) (chunks : List (List Byte)), 17 ≤ s.cfg.bufCap → s.inputs = chunks.map .rx →
    Sys2Proof.core.run chunks.length s = exec (.rx chunks.flatten) { s with inputs := [] }

/-- A whole frame, received by an empty buffer, runs the instruction its body decodes to, whatever its ETX byte (R174,
R187, R189). -/
def Obligations.ReceivedFrameRunsItsInstruction : Prop :=
  ∀ (s : State) (body : List Byte) (e : Byte) (i : Instr),
    receivable s body e → decodeBody body = .ok i →
      exec (.rx (body ++ [crcLow (crc16 body), crcHigh (crc16 body), e, 0xFA])) s = exec i s

/-- A frame that passes the CRC check fails it after a change of exactly one bit in a covered byte or a CRC byte: R109,
which the spec derives from R104 and R105. -/
def Obligations.OneBitErrorIsRejected : Prop :=
  ∀ (limit : Option Nat) (before after : List Byte) (b : Byte) (k : Nat),
    k < 8 → 2 ≤ after.length → 7 ≤ before.length + 1 + after.length →
    inspectFrame limit (before ++ [b] ++ after) ≠ .error .crc →
      inspectFrame limit (before ++ [b ^^^ BitVec.twoPow 8 k] ++ after) = .error .crc

/-- A candidate of seven bytes or more is judged by its CRC alone before its body is read: the trailer is compared low
byte first (R104, R105, R177, R178). -/
def Obligations.ChecksumDecidesBeforeTheBody : Prop :=
  ∀ (limit : Option Nat) (body : List Byte) (lo hi e f : Byte), 3 ≤ body.length →
    inspectFrame limit (body ++ [lo, hi, e, f]) =
      if (crc16 body).toNat = 256 * hi.toNat + lo.toNat then inspectBody limit body else .error .crc

/-- Every candidate below eight bytes is dropped: below seven by the length check, at seven by its CRC or for want of a
LEN byte (R176, R179). -/
def Obligations.CandidatesBelowEightBytesAreDropped : Prop :=
  ∀ (s : State) (f : List Byte), f.length < 8 → s.decodeFrame f = s

/-- R182 and R184: a 0x81 frame of neither form, and a frame of any other transaction code, is dropped with no event;
their examples are dropped as ignored. -/
def Obligations.UnrecognisedFramesAreIgnored : Prop :=
  (∀ (s : State) (a c tc l d0 : Byte) (data trailer : List Byte), trailer.length = 4 →
    (tc ≠ 0x81 ∧ tc ≠ 0x83) ∨
      (tc = 0x81 ∧ ((d0 ≠ 0x00 ∧ d0 ≠ 0x04) ∨ (d0 = 0x00 ∧ l.toNat < 2) ∨ (d0 = 0x04 ∧ l.toNat < 8))) →
      s.decodeFrame ([a, c, tc, l, d0] ++ data ++ trailer) = s) ∧
  (∀ (s : State) (a c tc l : Byte) (trailer : List Byte), trailer.length = 4 → tc ≠ 0x81 ∧ tc ≠ 0x83 →
      s.decodeFrame ([a, c, tc, l] ++ trailer) = s) ∧
  inspectFrame none [0x52, 0x11, 0x81, 0x02, 0x01, 0x04, 0x96, 0xED, 0x03, 0xFA] = .error .ignored ∧
  inspectFrame none [0x50, 0x11, 0x01, 0x01, 0x00, 0x2C, 0x6D, 0x03, 0xFA] = .error .ignored

/-- What the parser does not check: the ETX byte, the CTRL byte, and of a 0x83 report LEN and `data[0]` (R187). -/
def Obligations.UncheckedBytesDoNotMatter : Prop :=
  ∀ (limit : Option Nat) (body rest : List Byte) (lo hi e e' f a c c' l l' d d' : Byte),
    inspectFrame limit (body ++ [lo, hi, e, f]) = inspectFrame limit (body ++ [lo, hi, e', f]) ∧
    inspectBody limit (a :: c :: rest) = inspectBody limit (a :: c' :: rest) ∧
    inspectBody limit (a :: c :: 0x83 :: l :: d :: rest) = inspectBody limit (a :: c :: 0x83 :: l' :: d' :: rest)

/-- A dropped frame affects no frame after it, in the same chunk or later (R188). -/
def Obligations.DroppedFrameDoesNotAffectTheNext : Prop :=
  ∀ (s : State) (bad more : List Byte) (why : DropReason),
    s.rxState = .collecting → s.buf = [] → (0xFA : Byte) ∉ bad → bad.length + 1 ≤ s.cfg.bufCap →
    inspectFrame s.cfg.priceLimit (bad ++ [0xFA]) = .error why →
      exec (.rx (bad ++ [0xFA] ++ more)) s = exec (.rx more) s

/-- A frame longer than `BUF_CAP` is lost whole, up to and including its own 0xFA, and what follows is received normally
(R173, R266). -/
def Obligations.OversizedFrameIsLostAlone : Prop :=
  ∀ (s : State) (big more : List Byte),
    s.rxState = .collecting → s.buf = [] → (0xFA : Byte) ∉ big → 1 ≤ s.cfg.bufCap → s.cfg.bufCap ≤ big.length →
      exec (.rx (big ++ [0xFA] ++ more)) s = exec (.rx more) s

/-- R185: a merge overwrites the fields present in the delta, keeps every other field of the entry, and leaves every
other entry. The delta of a decoded frame is never empty, so a merge of one makes a field present. -/
def Obligations.MergeOverwritesOnlyPresentFields : Prop :=
  (∀ (t : SnapTable) (a x : Byte) (d : Entry),
    snapLookup (snapMerge t a d) x =
      if x = a then
        { status := if d.status = none then (snapLookup t a).status else d.status
          volume := if d.volume = none then (snapLookup t a).volume else d.volume
          amount := if d.amount = none then (snapLookup t a).amount else d.amount
          nozzle := if d.nozzle = none then (snapLookup t a).nozzle else d.nozzle
          inUse := if d.inUse = none then (snapLookup t a).inUse else d.inUse
          price := if d.price = none then (snapLookup t a).price else d.price }
      else snapLookup t x) ∧
  (∀ (limit : Option Nat) (f : List Byte) (t : SnapTable) (a : Byte) (d : Entry),
    inspectFrame limit f = .ok (a, d) → d ≠ Entry.empty ∧ snapLookup (snapMerge t a d) a ≠ Entry.empty)

/-- The source's merge example, from reset: R217, which the spec derives from R180, R181 and R185. -/
def Obligations.MergeExampleKeepsAllThreeFields : Prop :=
  ∃ t, Sys2Proof.core.run 2
      { State.reset with
        inputs := [.rx [0x52, 0x11, 0x81, 0x02, 0x00, 0x04, 0xA7, 0xDE, 0x03, 0xFA],
          .rx [0x52, 0x11, 0x81, 0x09, 0x04, 0x00, 0x00, 0x12, 0x34, 0x00, 0x05, 0x67, 0x89, 0x49, 0x5F, 0x03, 0xFA]] }
      = .next t ∧
    snapLookup t.snap 0x52 =
      { status := some 4, volume := some 1234, amount := some 56789, nozzle := none, inUse := none, price := none }

/-- Every step keeps the invariants of the buffer, the table, the result register and the events (R23, R25, R27, R31,
R75; the table's canonical form is log entry 6). -/
def Obligations.StepKeepsTheInvariant : Prop :=
  ∀ s t : State, s.Inv → step s = .next t → t.Inv

/-- The invariant holds after reset. -/
def Obligations.InvariantHoldsAtReset : Prop := State.reset.Inv

/-- Except for block reset, no step makes a present field absent, at any address (R26, R214). -/
def Obligations.NoStepForgetsAField : Prop :=
  ∀ (s t : State) (a : Byte), s.inputs.head? ≠ some .rst → step s = .next t →
    let before := snapLookup s.snap a
    let after := snapLookup t.snap a
    (before.status ≠ none → after.status ≠ none) ∧ (before.volume ≠ none → after.volume ≠ none) ∧
    (before.amount ≠ none → after.amount ≠ none) ∧ (before.nozzle ≠ none → after.nozzle ≠ none) ∧
    (before.inUse ≠ none → after.inUse ≠ none) ∧ (before.price ≠ none → after.price ≠ none)

/-- The event stream carries every change of the table: except for block reset, applying the deltas of a step's events to
a copy of the table gives the table after it, at every address (R185, R216, R219). -/
def Obligations.EventsMirrorTheSnapshotTable : Prop :=
  ∀ s t : State, s.inputs.head? ≠ some .rst → step s = .next t →
    ∃ new, t.events = s.events ++ new ∧
      ∀ a, snapLookup t.snap a =
        (new.filter fun ev => ev.addr = a).foldl (fun e ev => e.merge ev.delta) (snapLookup s.snap a)

/-- What each kind of instruction leaves unchanged (R20, R27, R59, R214): every instruction leaves the configuration and
the waiting inputs; only receiving and reset touch `buf`, `state` and `snap`; only receiving appends events; only sending
appends to TX; only a command and reset write `RESULT`; only a command and a read respond. For operands no encoding stands
for, and for the two lists of the environment, this is the model's choice (log entries 1, 14 and 18). -/
def Obligations.FrameOfEveryInstruction : Prop :=
  ∀ (i : Instr) (s : State), ∃ t, exec i s = .next t ∧
    t.cfg = s.cfg ∧ t.inputs = s.inputs ∧
    (kind i ≠ .receive → kind i ≠ .reset → t.rxState = s.rxState ∧ t.buf = s.buf ∧ t.snap = s.snap) ∧
    (kind i ≠ .receive → t.events = s.events) ∧
    (kind i ≠ .command → kind i ≠ .send → t.tx = s.tx) ∧
    (kind i ≠ .command → kind i ≠ .reset → t.result = s.result) ∧
    (kind i ≠ .command → kind i ≠ .read → t.responses = s.responses)

/-- The streams are append-only (R30, R31). The response list is the model's own (log entry 14). -/
def Obligations.StreamsOnlyGrow : Prop :=
  ∀ s t : State, step s = .next t → s.tx <+: t.tx ∧ s.events <+: t.events ∧ s.responses <+: t.responses

/-- Whatever a step sends is a sequence of whole frames, each with one of the payloads of R78 to R81 (R61, R76). -/
def Obligations.OnlyCatalogueFramesAreSent : Prop :=
  ∀ s t : State, step s = .next t →
    ∃ frames : List (Byte × List Byte),
      t.tx = s.tx ++ (frames.map fun x => frame x.1 x.2).flatten ∧ ∀ x ∈ frames, catalogue x.2

/-- The CRC's worked values: the empty sequence, one byte step, the check value and two sample bodies (R101 to R103,
R107). -/
def Obligations.ChecksumKnownValues : Prop :=
  crc16 [] = 0xFFFF ∧ crcStep 0xFFFF 0x50 = 0xBB05 ∧
    crc16 [0x31, 0x32, 0x33, 0x34, 0x35, 0x36, 0x37, 0x38, 0x39] = 0x29B1 ∧
    crc16 [0x50, 0x11, 0x01, 0x01, 0x00] = 0x6D2C ∧ crc16 [0x52, 0x11, 0x81, 0x02, 0x00, 0x04] = 0xDEA7

/-- With its CRC appended high byte first, every byte sequence has CRC 0; appended low byte first, as on the wire, not
every one has (R108). -/
def Obligations.ChecksumResidueHighByteFirst : Prop :=
  (∀ s : List Byte,
    crc16 (s ++ [BitVec.ofNat 8 ((crc16 s).toNat / 256), BitVec.ofNat 8 ((crc16 s).toNat % 256)]) = 0) ∧
  crc16 ([0x50, 0x11, 0x01, 0x01, 0x00] ++ [0x2C, 0x6D]) = 0x6618

/-- Decoding inverts encoding for every value that fits, and encoding inverts decoding for every valid sequence; 1234
comes back as 1234: R126, which the spec derives from R120 and R123. -/
def Obligations.PackedDecimalRoundTrip : Prop :=
  (∀ n v : Nat, 1 ≤ n → v < 10 ^ (2 * n) → ∃ s, bcdEncode v n = some s ∧ bcdDecode s = some v) ∧
  (∀ (s : List Byte) (v : Nat), bcdDecode s = some v → bcdEncode v s.length = some s) ∧
  bcdEncode 1234 4 = some [0x00, 0x00, 0x12, 0x34] ∧ bcdDecode [0x00, 0x00, 0x12, 0x34] = some 1234

/-- A sequence decodes exactly when it is not empty and has no nibble above 9, and a sequence of k bytes decodes to less
than 10^(2k) (R123 to R125). -/
def Obligations.PackedDecimalValidity : Prop :=
  ∀ s : List Byte,
    (bcdDecode s = none ↔ s = [] ∨ ∃ b ∈ s, 9 < b.toNat / 16 ∨ 9 < b.toNat % 16) ∧
    (∀ v, bcdDecode s = some v → v < 10 ^ (2 * s.length))

/-- The encoder answers n bytes whose nibbles are all at most 9, none above 0x99 and none 0xFA, and overflows exactly from
10^(2n) on (R120 to R122; that 0x03 is no encoded byte, which R122 also says, its own R120 contradicts: log entry 20). -/
def Obligations.EncodedBytesAreDigitPairs : Prop :=
  ∀ v n : Nat,
    (bcdEncode v n = none ↔ 10 ^ (2 * n) ≤ v) ∧
    (∀ s, bcdEncode v n = some s →
      s.length = n ∧ ∀ b ∈ s, b.toNat / 16 ≤ 9 ∧ b.toNat % 16 ≤ 9 ∧ b.toNat ≤ 0x99 ∧ b ≠ 0xFA)

/-- The printed words of an entry hold each field at its place: the valid bits, STATUS, NOZZLE, INUSE, zeros elsewhere in
W0, and the three decimal fields (R32). -/
def Obligations.PrintedEntryLayout : Prop :=
  ∀ e : Entry,
    (entryW0 e).toNat % 64 =
      (if e.status = none then 0 else 1) + (if e.volume = none then 0 else 2) + (if e.amount = none then 0 else 4) +
      (if e.nozzle = none then 0 else 8) + (if e.inUse = none then 0 else 16) + (if e.price = none then 0 else 32) ∧
    (entryW0 e).toNat / 2 ^ 6 % 4 = 0 ∧
    (∀ b, e.status = some b → (entryW0 e).toNat / 2 ^ 8 % 256 = b.toNat) ∧
    (∀ n, e.nozzle = some n → (entryW0 e).toNat / 2 ^ 16 % 16 = n.toNat) ∧
    (∀ u, e.inUse = some u → (entryW0 e).toNat / 2 ^ 20 % 2 = if u then 1 else 0) ∧
    (e.status = none → (entryW0 e).toNat / 2 ^ 8 % 256 = 0) ∧
    (e.nozzle = none → (entryW0 e).toNat / 2 ^ 16 % 16 = 0) ∧
    (e.inUse = none → (entryW0 e).toNat / 2 ^ 20 % 2 = 0) ∧
    (entryW0 e).toNat / 2 ^ 21 = 0 ∧
    (∀ v, e.volume = some v → v ≤ 99999999 → (entryW1 e).toNat = v) ∧ (e.volume = none → entryW1 e = 0) ∧
    (∀ m, e.amount = some m → m ≤ 99999999 → (entryW2 e).toNat = m) ∧ (e.amount = none → entryW2 e = 0) ∧
    (∀ p, e.price = some p → entryW3 e = p) ∧ (e.price = none → entryW3 e = 0)

/-- Each line of the test programs assembles to the input of its operation, with the defaults of R88, and the
pseudo-instructions to what R89 says. -/
def Obligations.AssembledLinesAreTheirOperations : Prop :=
  ∀ (a tc l c : Byte) (n : Option Byte) (v m : Option Word32) (chunk data : List Byte) (w x y : Word32),
    decodeInput (assemble (.requestStatus a)) = .ok (.requestStatus a) ∧
    decodeInput (assemble (.stop a)) = .ok (.stop a) ∧
    decodeInput (assemble (.pumpReset a)) = .ok (.pumpReset a) ∧
    decodeInput (assemble (.authorize a n v m)) = .ok (.authorize a (n.getD 1) v m) ∧
    decodeInput (assemble (.rx chunk)) = .ok (.rx chunk) ∧
    decodeInput (assemble .tick) = .ok .tick ∧
    decodeInput (assemble .poll) = .ok .tick ∧
    decodeInput (assemble .reset) = .ok .reset ∧
    decodeInput (assemble (.snap a)) = .ok (.snap a) ∧
    assemble (.cmdw w x y) = .cmd w x y ∧
    assemble (.rxf a tc l data none) = .rx (frame a ([tc, l] ++ data)) ∧
    assemble (.rxf a tc l data (some c)) =
      .rx ([a, c, tc, l] ++ data ++
        [BitVec.ofNat 8 ((crc16 ([a, c, tc, l] ++ data)).toNat % 256),
         BitVec.ofNat 8 ((crc16 ([a, c, tc, l] ++ data)).toNat / 256), 0x03, 0xFA])

/-- Block reset leaves the waiting inputs and the responses: the model's choice, log entries 1 and 14, since R260 names
neither list. -/
def Obligations.BlockResetLeavesTheWaitingLists : Prop :=
  ∀ s : State, ∃ t, exec .reset s = .next t ∧ t.inputs = s.inputs ∧ t.responses = s.responses
end

