-- ==== Sys2Proof/Laws/Codec.lean ====
section
/-! SUPPORT. The packed-decimal codec and the CRC unit, as arithmetic: digits of a byte, four-byte fields, the order of
the CRC bytes, and that a step of the CRC loses nothing. -/

namespace Sys2Proof.Machine

/-! ### Packed decimal -/

theorem digitHi_eq (b : Byte) : digitHi b = b.toNat / 16 := by revert b; decide

theorem digitLo_eq (b : Byte) : digitLo b = b.toNat % 16 := by revert b; decide

/-- A pair of decimal digits in one byte. -/
theorem bcdByte_toNat {p : Nat} (h : p < 100) : (bcdByte p).toNat = 16 * (p / 10) + p % 10 := by
  have all : ∀ q : Fin 100, (bcdByte q.val).toNat = 16 * (q.val / 10) + q.val % 10 := by decide
  exact all ⟨p, h⟩

theorem digitHi_bcdByte {p : Nat} (h : p < 100) : digitHi (bcdByte p) = p / 10 := by
  rw [digitHi_eq, bcdByte_toNat h]; omega

theorem digitLo_bcdByte {p : Nat} (h : p < 100) : digitLo (bcdByte p) = p % 10 := by
  rw [digitLo_eq, bcdByte_toNat h]; omega

/-- A byte of two decimal digits is the pair of its digits. -/
theorem bcdByte_digits {b : Byte} (h1 : digitHi b ≤ 9) (h2 : digitLo b ≤ 9) :
    bcdByte (digitHi b * 10 + digitLo b) = b := by
  apply BitVec.eq_of_toNat_eq
  rw [bcdByte_toNat (by omega), digitHi_eq, digitLo_eq]
  rw [digitHi_eq] at h1
  rw [digitLo_eq] at h2
  omega

/-- The encoder on a value that fits. -/
theorem bcdEncode_of_lt {v n : Nat} (h : v < 10 ^ (2 * n)) :
    bcdEncode v n = some ((List.range n).map fun i => bcdByte (v / 10 ^ (2 * (n - 1 - i)) % 100)) := by
  rw [bcdEncode, if_neg (by omega)]

/-- The encoder on a value that does not fit (R121). -/
theorem bcdEncode_of_ge {v n : Nat} (h : 10 ^ (2 * n) ≤ v) : bcdEncode v n = none := by rw [bcdEncode, if_pos h]

/-- The four bytes of a value of at most eight digits. -/
theorem bcdEncode_four {v : Nat} (h : v ≤ 99999999) :
    bcdEncode v 4 =
      some [bcdByte (v / 1000000 % 100), bcdByte (v / 10000 % 100), bcdByte (v / 100 % 100), bcdByte (v % 100)] := by
  rw [bcdEncode_of_lt (by omega)]
  simp [List.range, List.range.loop]

/-- The decoder's loop over two runs of bytes. -/
theorem bcdDecodeFrom_append (v : Nat) (s t : List Byte) :
    bcdDecodeFrom v (s ++ t) = (bcdDecodeFrom v s).bind fun w => bcdDecodeFrom w t := by
  induction s generalizing v with
  | nil => rfl
  | cons b s ih =>
    simp only [List.cons_append, bcdDecodeFrom]
    split
    · rfl
    · exact ih _

/-- The decoder's loop from `v` is the decoder's loop from 0, with `v` in front. -/
theorem bcdDecodeFrom_eq (v : Nat) (s : List Byte) :
    bcdDecodeFrom v s = (bcdDecodeFrom 0 s).map (v * 100 ^ s.length + ·) := by
  induction s generalizing v with
  | nil => simp [bcdDecodeFrom]
  | cons b s ih =>
    simp only [bcdDecodeFrom]
    split
    · rfl
    · rw [ih, ih (0 * 100 + _ + _), Option.map_map]
      congr 1
      funext w
      simp only [Function.comp, List.length_cons, pow_succ]
      ring

/-- A field of k bytes decodes to less than 100^k. -/
theorem bcdDecodeFrom_lt {s : List Byte} {w : Nat} (h : bcdDecodeFrom 0 s = some w) : w < 100 ^ s.length := by
  induction s generalizing w with
  | nil =>
    cases h
    simp
  | cons b s ih =>
    simp only [bcdDecodeFrom] at h
    split at h
    · cases h
    · next hd =>
      rw [bcdDecodeFrom_eq] at h
      cases hs : bcdDecodeFrom 0 s with
      | none => rw [hs] at h; cases h
      | some u =>
        rw [hs] at h
        simp only [Option.map_some, Option.some.injEq] at h
        have hu := ih hs
        have hb : digitHi b * 10 + digitLo b + 1 ≤ 100 := by omega
        have := Nat.mul_le_mul_right (100 ^ s.length) hb
        simp only [Nat.zero_mul, Nat.zero_add] at h
        rw [Nat.add_mul, Nat.one_mul] at this
        rw [List.length_cons, pow_succ]
        omega

/-- A sequence that decodes is not empty, and the loop decodes it. -/
theorem bcdDecode_eq_some {s : List Byte} {v : Nat} (h : bcdDecode s = some v) :
    s ≠ [] ∧ bcdDecodeFrom 0 s = some v := by
  cases s with
  | nil => simp [bcdDecode] at h
  | cons b s => exact ⟨by simp, h⟩

/-! ### The CRC -/

theorem crc16_append (s t : List Byte) : crc16 (s ++ t) = t.foldl crcStep (crc16 s) := by
  simp [crc16, List.foldl_append]

theorem crcLow_eq (c : Word16) : crcLow c = BitVec.ofNat 8 (c.toNat % 256) := by
  apply BitVec.eq_of_toNat_eq
  simp [crcLow, BitVec.extractLsb'_toNat]

theorem crcHigh_eq (c : Word16) : crcHigh c = BitVec.ofNat 8 (c.toNat / 256) := by
  apply BitVec.eq_of_toNat_eq
  simp [crcHigh, BitVec.extractLsb'_toNat, Nat.shiftRight_eq_div_pow]

/-- The trailer value as a number: the low byte comes first (R105). -/
theorem trailerValue_toNat (lo hi : Byte) : (trailerValue lo hi).toNat = 256 * hi.toNat + lo.toNat := by
  have h1 := lo.isLt
  have h2 := hi.isLt
  have key := Nat.two_pow_add_eq_or_of_lt (i := 8) (b := lo.toNat) (by omega) hi.toNat
  rw [trailerValue, BitVec.toNat_or]
  simp only [BitVec.toNat_shiftLeft, BitVec.toNat_setWidth, Nat.shiftLeft_eq]
  rw [Nat.mod_eq_of_lt (a := lo.toNat) (by omega), Nat.mod_eq_of_lt (a := hi.toNat) (by omega),
    Nat.mod_eq_of_lt (by omega), Nat.mul_comm hi.toNat, ← key]

/-- The trailer of the two CRC bytes is the CRC. -/
theorem trailerValue_crc (c : Word16) : trailerValue (crcLow c) (crcHigh c) = c := by
  apply BitVec.eq_of_toNat_eq
  have := c.isLt
  rw [trailerValue_toNat, crcLow_eq, crcHigh_eq]
  simp only [BitVec.toNat_ofNat]
  omega

/-- An exclusive OR with the same word on the right loses nothing. -/
theorem xor_cancel_right {w : Nat} {x y : BitVec w} (k : BitVec w) (h : x ^^^ k = y ^^^ k) : x = y := by
  have := congrArg (· ^^^ k) h
  simpa [BitVec.xor_assoc] using this

/-- One bit step loses nothing. -/
theorem crcBit_injective : Function.Injective crcBit := by
  intro c d h
  have e : ∀ x : Word16, (crcBit x).getLsbD 0 = x.getLsbD 15 := by
    intro x
    unfold crcBit
    split <;> simp_all
  have h15 : c.getLsbD 15 = d.getLsbD 15 := by rw [← e, ← e, h]
  have hs : c <<< 1 = d <<< 1 := by
    unfold crcBit at h
    rw [h15] at h
    split at h
    · exact xor_cancel_right _ h
    · exact h
  apply BitVec.eq_of_getLsbD_eq
  intro i hi
  by_cases hi' : i = 15
  · rw [hi', h15]
  · have := congrArg (fun x => x.getLsbD (i + 1)) hs
    simpa [show i + 1 < 16 by omega, BitVec.getLsbD_eq_getElem hi] using this

theorem crcBits_injective (k : Nat) : Function.Injective (crcBits k) := by
  induction k with
  | zero => exact fun _ _ h => h
  | succ k ih => exact fun _ _ h => crcBit_injective (ih h)

/-- Different CRC values stay different after the same byte. -/
theorem crcStep_injective (b : Byte) : Function.Injective fun c => crcStep c b := by
  intro c d h
  exact xor_cancel_right _ (crcBits_injective 8 h)

/-- Different bytes make different CRC values. -/
theorem crcStep_byte_injective (c : Word16) : Function.Injective (crcStep c) := by
  intro a b h
  have h' := crcBits_injective 8 h
  rw [BitVec.xor_comm c, BitVec.xor_comm c] at h'
  replace h' := xor_cancel_right _ h'
  apply BitVec.eq_of_getLsbD_eq
  intro i hi
  have := congrArg (fun x => x.getLsbD (i + 8)) h'
  simpa [show i + 8 < 16 by omega, show i < 16 by omega, BitVec.getLsbD_eq_getElem hi] using this

/-- Different CRC values stay different over the same bytes. -/
theorem crcFold_injective (s : List Byte) : Function.Injective fun c => s.foldl crcStep c := by
  induction s with
  | nil => exact fun _ _ h => h
  | cons b s ih => exact fun _ _ h => crcStep_injective b (ih h)

end Sys2Proof.Machine
end

