-- ==== Sys2Proof/Laws/Snap.lean ====
section
/-! SUPPORT. The snapshot table: what a store changes and what it keeps, and that the canonical form is kept. -/

namespace Sys2Proof.Machine

/-- Removing every cell of one address leaves the reads of all others, and makes that one read as unwritten. -/
theorem snapLookup_remove (t : SnapTable) (a b : Byte) :
    snapLookup (t.filter (fun c => c.1 ≠ a)) b = if b = a then Entry.empty else snapLookup t b := by
  induction t with
  | nil => simp [snapLookup]
  | cons c t ih =>
    obtain ⟨k, e⟩ := c
    by_cases hk : k = a
    · subst hk
      simp only [ne_eq, not_true_eq_false, decide_false, Bool.false_eq_true, not_false_eq_true,
        List.filter_cons_of_neg, snapLookup]
      rw [ih]
      by_cases hb : b = k
      · simp [hb]
      · simp [hb, Ne.symm hb]
    · rw [List.filter_cons_of_pos (by simpa using hk)]
      simp only [snapLookup]
      rw [ih]
      by_cases hb : k = b
      · subst hb; simp [hk]
      · simp [hb]

/-- Reading back an inserted entry, where no cell of its address is listed, and reading any other address. -/
theorem snapLookup_insert (t : SnapTable) (a b : Byte) (e : Entry) (h : ∀ c ∈ t, c.1 ≠ a) :
    snapLookup (snapInsert a e t) b = if b = a then e else snapLookup t b := by
  induction t with
  | nil =>
    by_cases hb : b = a
    · simp [snapInsert, snapLookup, hb]
    · simp [snapInsert, snapLookup, hb, Ne.symm hb]
  | cons c t ih =>
    obtain ⟨k, x⟩ := c
    have hk : k ≠ a := h (k, x) (by simp)
    simp only [snapInsert]
    split
    · by_cases hb : b = a
      · simp [snapLookup, hb]
      · simp [snapLookup, hb, Ne.symm hb]
    · simp only [snapLookup]
      rw [ih (fun c hc => h c (by simp [hc]))]
      by_cases hb : k = b
      · subst hb; simp [hk]
      · simp [hb]

/-- The one law of a store: the stored address reads as the entry stored, every other as before. -/
theorem snapLookup_store (t : SnapTable) (a b : Byte) (e : Entry) :
    snapLookup (snapStore t a e) b = if b = a then e else snapLookup t b := by
  unfold snapStore
  split
  · next h => rw [snapLookup_remove, h]
  · rw [snapLookup_insert _ _ _ _ (by intro c hc; simpa using (List.mem_filter.mp hc).2), snapLookup_remove]
    by_cases hb : b = a <;> simp [hb]

@[simp] theorem snapLookup_store_same (t : SnapTable) (a : Byte) (e : Entry) :
    snapLookup (snapStore t a e) a = e := by simp [snapLookup_store]

theorem snapLookup_store_other (t : SnapTable) {a b : Byte} (e : Entry) (h : b ≠ a) :
    snapLookup (snapStore t a e) b = snapLookup t b := by simp [snapLookup_store, h]

/-- What a merge does to every read of the table. -/
theorem snapLookup_merge (t : SnapTable) (a b : Byte) (d : Entry) :
    snapLookup (snapMerge t a d) b = if b = a then (snapLookup t a).merge d else snapLookup t b := by
  simp [snapMerge, snapLookup_store]

/-- The cells of a table after an insertion. -/
theorem mem_snapInsert (t : SnapTable) (a : Byte) (e : Entry) (c : Byte × Entry) :
    c ∈ snapInsert a e t ↔ c = (a, e) ∨ c ∈ t := by
  induction t with
  | nil => simp [snapInsert]
  | cons x t ih =>
    simp only [snapInsert]
    split
    · simp
    · simp only [List.mem_cons, ih]
      tauto

/-- An insertion keeps the addresses rising where none equals the new one. -/
theorem snapInsert_pairwise (t : SnapTable) (a : Byte) (e : Entry)
    (ht : t.Pairwise (fun x y => x.1.toNat < y.1.toNat)) (h : ∀ c ∈ t, c.1 ≠ a) :
    (snapInsert a e t).Pairwise (fun x y => x.1.toNat < y.1.toNat) := by
  induction t with
  | nil => simp [snapInsert]
  | cons x t ih =>
    obtain ⟨hx, ht'⟩ := List.pairwise_cons.mp ht
    simp only [snapInsert]
    split
    · next hlt =>
      refine List.pairwise_cons.mpr ⟨fun c hc => ?_, ht⟩
      rcases List.mem_cons.mp hc with rfl | hc
      · exact hlt
      · exact Nat.lt_trans hlt (hx c hc)
    · next hge =>
      refine List.pairwise_cons.mpr ⟨fun c hc => ?_, ih ht' (fun c hc => h c (by simp [hc]))⟩
      rcases (mem_snapInsert t a e c).mp hc with rfl | hc
      · have hne : x.1.toNat ≠ a.toNat := fun hh => h x (by simp) (BitVec.eq_of_toNat_eq hh)
        show x.1.toNat < a.toNat
        omega
      · exact hx c hc

/-- A store keeps the canonical form. -/
theorem snapStore_wf (t : SnapTable) (a : Byte) (e : Entry) (ht : t.wf) : (snapStore t a e).wf := by
  have hp : (t.filter (fun c => c.1 ≠ a)).Pairwise (fun x y => x.1.toNat < y.1.toNat) := ht.1.filter _
  have he : ∀ c ∈ t.filter (fun c => c.1 ≠ a), c.2 ≠ Entry.empty :=
    fun c hc => ht.2 c (List.mem_filter.mp hc).1
  unfold snapStore
  split
  · exact ⟨hp, he⟩
  · next hne =>
    refine ⟨snapInsert_pairwise _ _ _ hp (by intro c hc; simpa using (List.mem_filter.mp hc).2), ?_⟩
    intro c hc
    rcases (mem_snapInsert _ _ _ c).mp hc with rfl | hc
    · exact hne
    · exact he c hc

/-- A merge keeps the canonical form. -/
theorem snapMerge_wf (t : SnapTable) (a : Byte) (d : Entry) (ht : t.wf) : (snapMerge t a d).wf :=
  snapStore_wf t a _ ht

/-- The table after reset has the canonical form. -/
theorem reset_snap_wf : SnapTable.wf State.reset.snap := by decide

end Sys2Proof.Machine
end

