-- ==== Sys2Proof/Laws/State.lean ====
section
/-! SUPPORT. One lemma per field of State and update, true by rfl. -/

namespace Sys2Proof.Machine

variable (s : State)

@[simp] theorem State.txFrame_cfg (a : Byte) (p : List Byte) : (s.txFrame a p).cfg = s.cfg := rfl
@[simp] theorem State.txFrame_rxState (a : Byte) (p : List Byte) : (s.txFrame a p).rxState = s.rxState := rfl
@[simp] theorem State.txFrame_buf (a : Byte) (p : List Byte) : (s.txFrame a p).buf = s.buf := rfl
@[simp] theorem State.txFrame_snap (a : Byte) (p : List Byte) : (s.txFrame a p).snap = s.snap := rfl
@[simp] theorem State.txFrame_result (a : Byte) (p : List Byte) : (s.txFrame a p).result = s.result := rfl
@[simp] theorem State.txFrame_inputs (a : Byte) (p : List Byte) : (s.txFrame a p).inputs = s.inputs := rfl
@[simp] theorem State.txFrame_tx (a : Byte) (p : List Byte) : (s.txFrame a p).tx = s.tx ++ frameBytes a p := rfl
@[simp] theorem State.txFrame_events (a : Byte) (p : List Byte) : (s.txFrame a p).events = s.events := rfl
@[simp] theorem State.txFrame_responses (a : Byte) (p : List Byte) : (s.txFrame a p).responses = s.responses := rfl

@[simp] theorem State.respond_cfg (c : Byte) : (s.respond c).cfg = s.cfg := rfl
@[simp] theorem State.respond_rxState (c : Byte) : (s.respond c).rxState = s.rxState := rfl
@[simp] theorem State.respond_buf (c : Byte) : (s.respond c).buf = s.buf := rfl
@[simp] theorem State.respond_snap (c : Byte) : (s.respond c).snap = s.snap := rfl
@[simp] theorem State.respond_result (c : Byte) : (s.respond c).result = c := rfl
@[simp] theorem State.respond_inputs (c : Byte) : (s.respond c).inputs = s.inputs := rfl
@[simp] theorem State.respond_tx (c : Byte) : (s.respond c).tx = s.tx := rfl
@[simp] theorem State.respond_events (c : Byte) : (s.respond c).events = s.events := rfl
@[simp] theorem State.respond_responses (c : Byte) : (s.respond c).responses = s.responses ++ [.result c] := rfl

@[simp] theorem State.raiseError_cfg (e : HostError) : (s.raiseError e).cfg = s.cfg := rfl
@[simp] theorem State.raiseError_rxState (e : HostError) : (s.raiseError e).rxState = s.rxState := rfl
@[simp] theorem State.raiseError_buf (e : HostError) : (s.raiseError e).buf = s.buf := rfl
@[simp] theorem State.raiseError_snap (e : HostError) : (s.raiseError e).snap = s.snap := rfl
@[simp] theorem State.raiseError_result (e : HostError) : (s.raiseError e).result = e.code := rfl
@[simp] theorem State.raiseError_inputs (e : HostError) : (s.raiseError e).inputs = s.inputs := rfl
@[simp] theorem State.raiseError_tx (e : HostError) : (s.raiseError e).tx = s.tx := rfl
@[simp] theorem State.raiseError_events (e : HostError) : (s.raiseError e).events = s.events := rfl
@[simp] theorem State.raiseError_responses (e : HostError) : (s.raiseError e).responses = s.responses ++ [.result e.code] := rfl

@[simp] theorem State.complete_cfg : (s.complete).cfg = s.cfg := rfl
@[simp] theorem State.complete_rxState : (s.complete).rxState = s.rxState := rfl
@[simp] theorem State.complete_buf : (s.complete).buf = s.buf := rfl
@[simp] theorem State.complete_snap : (s.complete).snap = s.snap := rfl
@[simp] theorem State.complete_result : (s.complete).result = okCode := rfl
@[simp] theorem State.complete_inputs : (s.complete).inputs = s.inputs := rfl
@[simp] theorem State.complete_tx : (s.complete).tx = s.tx := rfl
@[simp] theorem State.complete_events : (s.complete).events = s.events := rfl
@[simp] theorem State.complete_responses : (s.complete).responses = s.responses ++ [.result okCode] := rfl

@[simp] theorem State.report_cfg (a : Byte) (d : Entry) : (s.report a d).cfg = s.cfg := rfl
@[simp] theorem State.report_rxState (a : Byte) (d : Entry) : (s.report a d).rxState = s.rxState := rfl
@[simp] theorem State.report_buf (a : Byte) (d : Entry) : (s.report a d).buf = s.buf := rfl
@[simp] theorem State.report_snap (a : Byte) (d : Entry) : (s.report a d).snap = snapMerge s.snap a d := rfl
@[simp] theorem State.report_result (a : Byte) (d : Entry) : (s.report a d).result = s.result := rfl
@[simp] theorem State.report_inputs (a : Byte) (d : Entry) : (s.report a d).inputs = s.inputs := rfl
@[simp] theorem State.report_tx (a : Byte) (d : Entry) : (s.report a d).tx = s.tx := rfl
@[simp] theorem State.report_events (a : Byte) (d : Entry) : (s.report a d).events = s.events ++
    [{ addr := a, delta := d, snap := snapLookup (snapMerge s.snap a d) a }] := rfl
@[simp] theorem State.report_responses (a : Byte) (d : Entry) : (s.report a d).responses = s.responses := rfl

@[simp] theorem State.deliverNext_cfg (i : Input) : (s.deliverNext i).cfg = s.cfg := rfl
@[simp] theorem State.deliverNext_rxState (i : Input) : (s.deliverNext i).rxState = s.rxState := rfl
@[simp] theorem State.deliverNext_buf (i : Input) : (s.deliverNext i).buf = s.buf := rfl
@[simp] theorem State.deliverNext_snap (i : Input) : (s.deliverNext i).snap = s.snap := rfl
@[simp] theorem State.deliverNext_result (i : Input) : (s.deliverNext i).result = s.result := rfl
@[simp] theorem State.deliverNext_inputs (i : Input) : (s.deliverNext i).inputs = i :: s.inputs := rfl
@[simp] theorem State.deliverNext_tx (i : Input) : (s.deliverNext i).tx = s.tx := rfl
@[simp] theorem State.deliverNext_events (i : Input) : (s.deliverNext i).events = s.events := rfl
@[simp] theorem State.deliverNext_responses (i : Input) : (s.deliverNext i).responses = s.responses := rfl

end Sys2Proof.Machine
end

