-- ==== Sys2Proof/Laws/Ops.lean ====
section
/-! SUPPORT. For each shared operation, once, everything it can do. -/

namespace Sys2Proof.Machine

/-- A host command ends in one of three ways: ERR_ADDR, the error of its operands, or its frames and OK. -/
theorem State.hostCommand_cases (s : State) (a : Byte) (p : Except HostError (List (List Byte))) :
    (addrRefused s.cfg a = true ∧ s.hostCommand a p = s.raiseError .addr) ∨
    (addrRefused s.cfg a = false ∧ ∃ e, p = .error e ∧ s.hostCommand a p = s.raiseError e) ∨
    (addrRefused s.cfg a = false ∧ ∃ ps, p = .ok ps ∧ s.hostCommand a p = (s.txFrames a ps).complete) := by
  unfold State.hostCommand
  cases h : addrRefused s.cfg a
  · cases p <;> simp
  · simp

/-- Writing several frames appends their bytes in order and changes nothing else. -/
theorem State.txFrames_eq (s : State) (a : Byte) (ps : List (List Byte)) :
    s.txFrames a ps = { s with tx := s.tx ++ (ps.map (frameBytes a)).flatten } := by
  unfold State.txFrames
  induction ps generalizing s with
  | nil => simp
  | cons p ps ih =>
    rw [List.foldl_cons, ih]
    simp [State.txFrame, List.append_assoc]

/-- The end of a received body: either nothing changes, or the delta is merged and reported. -/
theorem State.deliver_cases (s : State) (a : Byte) (r : Except DropReason Entry) :
    (∃ why, r = .error why ∧ s.deliver a r = s) ∨ (∃ d, r = .ok d ∧ s.deliver a r = s.report a d) := by
  cases r with
  | error w => exact .inl ⟨w, rfl, rfl⟩
  | ok d => exact .inr ⟨d, rfl, rfl⟩

/-- A candidate frame is dropped without any change, or its delta is merged and reported. -/
theorem State.decodeFrame_cases (s : State) (f : List Byte) :
    (∃ why, inspectFrame s.cfg.priceLimit f = .error why ∧ s.decodeFrame f = s) ∨
    (∃ a d, inspectFrame s.cfg.priceLimit f = .ok (a, d) ∧ s.decodeFrame f = s.report a d) := by
  unfold State.decodeFrame
  cases h : inspectFrame s.cfg.priceLimit f with
  | error w => exact .inl ⟨w, rfl, rfl⟩
  | ok r => exact .inr ⟨r.1, r.2, rfl, rfl⟩

/-- What one received byte can do (R171 to R173). -/
theorem rxByte_cases (s : State) (b : Byte) :
    (s.rxState = .collecting ∧ b = frameEnd ∧
      rxByte s b = State.decodeFrame { s with buf := [] } (s.buf ++ [b])) ∨
    (s.rxState = .collecting ∧ b ≠ frameEnd ∧ s.buf.length = s.cfg.bufCap - 1 ∧
      rxByte s b = { s with buf := [], rxState := .discard }) ∨
    (s.rxState = .collecting ∧ b ≠ frameEnd ∧ s.buf.length ≠ s.cfg.bufCap - 1 ∧
      rxByte s b = { s with buf := s.buf ++ [b] }) ∨
    (s.rxState = .discard ∧ b = frameEnd ∧ rxByte s b = { s with rxState := .collecting }) ∨
    (s.rxState = .discard ∧ b ≠ frameEnd ∧ rxByte s b = s) := by
  unfold rxByte
  cases hs : s.rxState <;> by_cases hb : b = frameEnd <;> by_cases hl : s.buf.length = s.cfg.bufCap - 1 <;>
    simp [hb, hl]

/-- One received byte leaves the parameters, the result, the inputs, the TX stream and the responses. -/
theorem rxByte_frame (s : State) (b : Byte) :
    (rxByte s b).cfg = s.cfg ∧ (rxByte s b).result = s.result ∧ (rxByte s b).inputs = s.inputs ∧
      (rxByte s b).tx = s.tx ∧ (rxByte s b).responses = s.responses := by
  rcases rxByte_cases s b with ⟨-, -, h⟩ | ⟨-, -, -, h⟩ | ⟨-, -, -, h⟩ | ⟨-, -, h⟩ | ⟨-, -, h⟩
  · rw [h]
    rcases State.decodeFrame_cases { s with buf := [] } (s.buf ++ [b]) with ⟨w, -, h'⟩ | ⟨a, d, -, h'⟩ <;>
      rw [h'] <;> simp
  all_goals rw [h]; simp

/-- The outcomes of taking the next input. -/
theorem fetchInput_cases (s : State) :
    (s.inputs = [] ∧ fetchInput s = none) ∨
    (∃ i rest, s.inputs = i :: rest ∧ fetchInput s = some (i, { s with inputs := rest })) := by
  unfold fetchInput
  cases h : s.inputs with
  | nil => exact .inl ⟨rfl, rfl⟩
  | cons i rest => exact .inr ⟨i, rest, rfl, rfl⟩

/-- What a step that goes on can be: idle, an instruction that goes on, or an illegal command word. -/
theorem step_cases {s t : State} (h : step s = .next t) :
    17 ≤ s.cfg.bufCap ∧
    ((s.inputs = [] ∧ t = s) ∨
     ∃ x rest, s.inputs = x :: rest ∧
      ((∃ i, decodeInput x = .ok i ∧ exec i { s with inputs := rest } = .next t) ∨
       (∃ e, decodeInput x = .error e ∧ t = State.raiseError { s with inputs := rest } .illegal))) := by
  unfold step at h
  split at h
  · exact absurd h (by simp)
  · next hc =>
    refine ⟨by omega, ?_⟩
    rcases fetchInput_cases s with ⟨hi, hf⟩ | ⟨x, rest, hi, hf⟩
    · rw [hf] at h
      simp only [execIdle, Host.Outcome.next.injEq] at h
      exact .inl ⟨hi, h.symm⟩
    · rw [hf] at h
      refine .inr ⟨x, rest, hi, ?_⟩
      dsimp only at h
      cases hd : decodeInput x with
      | ok i => rw [hd] at h; exact .inl ⟨i, rfl, h⟩
      | error e =>
        rw [hd] at h
        simp only [execIllegal, Host.Outcome.next.injEq] at h
        exact .inr ⟨e, rfl, h.symm⟩

end Sys2Proof.Machine
end

