-- ==== Sys2Proof/Laws/PerInstr.lean ====
section
/-! SUPPORT. Per instruction: the encoder's word matches the match and mask of the instruction's own row of
spec/opcode_table.json (30_encoding.md R90). -/

namespace Sys2Proof.Laws

/-- The bits of an encoded form that the opcode table numbers, as bytes, the most significant first: `CMD`, the payload,
or `[TRANS, LEN, data[0]]` (R90); none for a port. -/
def tableBytes : Code → List Byte
  | .input (.cmd c _ _) => [c.extractLsb' 24 8, c.extractLsb' 16 8, c.extractLsb' 8 8, c.extractLsb' 0 8]
  | .input _ => []
  | .payload _ bytes => bytes
  | .body bytes => [bytes.getD 2 0, bytes.getD 3 0, bytes.getD 4 0]

/-- The mask and the match of an instruction's row, in the same bytes. -/
def tableRow : Instr → List Byte × List Byte
  | .requestStatus _ => ([0xFC, 0, 0, 0xFF], [0, 0, 0, 0x01])
  | .stop _ => ([0xFC, 0, 0, 0xFF], [0, 0, 0, 0x03])
  | .pumpReset _ => ([0xFC, 0, 0, 0xFF], [0, 0, 0, 0x04])
  | .authorize _ _ _ _ => ([0xFC, 0, 0, 0xFF], [0, 0, 0, 0x02])
  | .cd1Status _ => ([0xFF, 0xFF, 0xFF], [0x01, 0x01, 0x00])
  | .cd1Reset _ => ([0xFF, 0xFF, 0xFF], [0x01, 0x01, 0x05])
  | .cd1Authorize _ => ([0xFF, 0xFF, 0xFF], [0x01, 0x01, 0x06])
  | .cd1Stop _ => ([0xFF, 0xFF, 0xFF], [0x01, 0x01, 0x08])
  | .cd2Nozzle _ _ => ([0xFF, 0xFF, 0], [0x02, 0x01, 0])
  | .cd3PresetVol _ _ => ([0xFF, 0xFF, 0, 0, 0, 0], [0x03, 0x04, 0, 0, 0, 0])
  | .cd4PresetAmt _ _ => ([0xFF, 0xFF, 0, 0, 0, 0], [0x04, 0x04, 0, 0, 0, 0])
  | .dc1Status _ _ _ _ => ([0xFF, 0, 0xFF], [0x81, 0, 0x00])
  | .dc1Volamt _ _ _ _ => ([0xFF, 0, 0xFF], [0x81, 0, 0x04])
  | .dc1Other _ _ _ _ => ([0xFF, 0, 0], [0x81, 0, 0])
  | .dc3Nozprice _ _ _ _ => ([0xFF, 0, 0], [0x83, 0, 0])
  | .rxIgnored _ _ _ _ _ => ([0, 0, 0], [0, 0, 0])
  | .rx _ => ([], [])
  | .tick => ([], [])
  | .reset => ([], [])
  | .snap _ => ([], [])

namespace TableMatch

/-- The encoded form of a well-formed instruction, masked as its row says, is the match of its row, and it has as many
bytes as the row. -/
def Statement (i : Instr) : Prop :=
  i.WellFormed →
    (tableBytes (encode i)).length = (tableRow i).1.length ∧
      List.zipWith (· &&& ·) (tableBytes (encode i)) (tableRow i).1 = (tableRow i).2

/-- The four bytes of a command word: the presence bits, the nozzle, the address and the opcode (R71). -/
theorem commandWord_bytes (op addr nozzle : Byte) (v m : Bool) :
    (commandWord op addr nozzle v m).extractLsb' 24 8 = BitVec.ofNat 8 (v.toNat + 2 * m.toNat) ∧
    (commandWord op addr nozzle v m).extractLsb' 16 8 = nozzle ∧
    (commandWord op addr nozzle v m).extractLsb' 8 8 = addr ∧
    (commandWord op addr nozzle v m).extractLsb' 0 8 = op := by
  have hv : v.toNat ≤ 1 := Bool.toNat_le v
  have hm : m.toNat ≤ 1 := Bool.toNat_le m
  have h1 := op.isLt
  have h2 := addr.isLt
  have h3 := nozzle.isLt
  refine ⟨?_, ?_, ?_, ?_⟩ <;> apply BitVec.eq_of_toNat_eq <;>
    simp only [commandWord, BitVec.extractLsb'_toNat, BitVec.toNat_ofNat, Nat.shiftRight_eq_div_pow] <;> omega

theorem preset_length (v : Nat) (h : v ≤ presetMax) : (presetBytes v).length = 4 := by
  have h' : v < 100000000 := by unfold presetMax at h; omega
  simp [presetBytes, Machine.bcdEncode, presetWidth, Nat.not_le.mpr h']

theorem requestStatus (addr : Byte) : Statement (.requestStatus addr) := by
  intro _
  obtain ⟨h1, h2, h3, h4⟩ := commandWord_bytes 0x01 addr 0 false false
  simp only [encode, tableBytes, tableRow, h1, h2, h3, h4]
  simp
theorem stop (addr : Byte) : Statement (.stop addr) := by
  intro _
  obtain ⟨h1, h2, h3, h4⟩ := commandWord_bytes 0x03 addr 0 false false
  simp only [encode, tableBytes, tableRow, h1, h2, h3, h4]
  simp
theorem pumpReset (addr : Byte) : Statement (.pumpReset addr) := by
  intro _
  obtain ⟨h1, h2, h3, h4⟩ := commandWord_bytes 0x04 addr 0 false false
  simp only [encode, tableBytes, tableRow, h1, h2, h3, h4]
  simp
theorem authorize (addr nozzle : Byte) (volume amount : Option Word32) :
    Statement (.authorize addr nozzle volume amount) := by
  intro _
  obtain ⟨h1, h2, h3, h4⟩ := commandWord_bytes 0x02 addr nozzle volume.isSome amount.isSome
  simp only [encode, tableBytes, tableRow, h1, h2, h3, h4]
  cases volume <;> cases amount <;> simp
theorem cd1Status (addr : Byte) : Statement (.cd1Status addr) := fun _ => by
  simp [encode, tableBytes, tableRow]
theorem cd1Reset (addr : Byte) : Statement (.cd1Reset addr) := fun _ => by
  simp [encode, tableBytes, tableRow]
theorem cd1Authorize (addr : Byte) : Statement (.cd1Authorize addr) := fun _ => by
  simp [encode, tableBytes, tableRow]
theorem cd1Stop (addr : Byte) : Statement (.cd1Stop addr) := fun _ => by
  simp [encode, tableBytes, tableRow]
theorem cd2Nozzle (addr nozzle : Byte) : Statement (.cd2Nozzle addr nozzle) := by
  intro _
  simp [encode, tableBytes, tableRow]

/-- A preset payload, byte by byte. -/
theorem preset_shape (v : Nat) (h : v ≤ presetMax) : ∃ a b c d, presetBytes v = [a, b, c, d] := by
  have hl := preset_length v h
  match hp : presetBytes v, hl with
  | [a, b, c, d], _ => exact ⟨a, b, c, d, rfl⟩

theorem cd3PresetVol (addr : Byte) (volume : Nat) : Statement (.cd3PresetVol addr volume) := by
  intro h
  have hv : volume ≤ presetMax := by
    by_contra hc
    simp [Instr.WellFormed, Instr.formError, hc] at h
  obtain ⟨a, b, c, d, hp⟩ := preset_shape volume hv
  simp [encode, tableBytes, tableRow, hp]
theorem cd4PresetAmt (addr : Byte) (amount : Nat) : Statement (.cd4PresetAmt addr amount) := by
  intro h
  have hv : amount ≤ presetMax := by
    by_contra hc
    simp [Instr.WellFormed, Instr.formError, hc] at h
  obtain ⟨a, b, c, d, hp⟩ := preset_shape amount hv
  simp [encode, tableBytes, tableRow, hp]
theorem dc1Status (addr ctrl len : Byte) (data : List Byte) : Statement (.dc1Status addr ctrl len data) := by
  intro h
  have hd : data.head? = some 0x00 := by
    by_contra hc
    simp only [Instr.WellFormed, Instr.formError, if_pos hc] at h
    cases h
  cases data with
  | nil => simp at hd
  | cons b more => simp_all [encode, tableBytes, tableRow]
theorem dc1Volamt (addr ctrl len : Byte) (data : List Byte) : Statement (.dc1Volamt addr ctrl len data) := by
  intro h
  have hd : data.head? = some 0x04 := by
    by_contra hc
    simp only [Instr.WellFormed, Instr.formError, if_pos hc] at h
    cases h
  cases data with
  | nil => simp at hd
  | cons b more => simp_all [encode, tableBytes, tableRow]
theorem dc1Other (addr ctrl len : Byte) (data : List Byte) : Statement (.dc1Other addr ctrl len data) := by
  intro _
  simp [encode, tableBytes, tableRow]
theorem dc3Nozprice (addr ctrl len : Byte) (data : List Byte) : Statement (.dc3Nozprice addr ctrl len data) := by
  intro _
  simp [encode, tableBytes, tableRow]
theorem rxIgnored (addr ctrl tc len : Byte) (data : List Byte) : Statement (.rxIgnored addr ctrl tc len data) := by
  intro _
  simp [encode, tableBytes, tableRow]
theorem rx (chunk : List Byte) : Statement (.rx chunk) := fun _ => by simp [encode, tableBytes, tableRow]
theorem tick : Statement .tick := fun _ => by decide
theorem reset : Statement .reset := fun _ => by decide
theorem snap (addr : Byte) : Statement (.snap addr) := fun _ => by simp [encode, tableBytes, tableRow]

end TableMatch

end Sys2Proof.Laws
end

