-- ==== Sys2Proof/Laws/Command.lean ====
section
/-! SUPPORT. Host commands: the fields of a command word as numbers, the address check, and what building the payloads
of AUTHORIZE can answer. -/

namespace Sys2Proof

/-! ### The fields of a command word (R71) -/

theorem cmdOp_toNat (c : Word32) : (cmdOp c).toNat = c.toNat % 256 := by
  simp [cmdOp, BitVec.extractLsb'_toNat]

theorem cmdAddr_toNat (c : Word32) : (cmdAddr c).toNat = c.toNat / 2 ^ 8 % 256 := by
  simp [cmdAddr, BitVec.extractLsb'_toNat, Nat.shiftRight_eq_div_pow]

theorem cmdNozzle_toNat (c : Word32) : (cmdNozzle c).toNat = c.toNat / 2 ^ 16 % 256 := by
  simp [cmdNozzle, BitVec.extractLsb'_toNat, Nat.shiftRight_eq_div_pow]

theorem cmdReserved_toNat (c : Word32) : (cmdReserved c).toNat = c.toNat / 2 ^ 26 := by
  have := c.isLt
  simp only [cmdReserved, BitVec.extractLsb'_toNat, Nat.shiftRight_eq_div_pow]
  omega

theorem cmdReserved_eq_zero (c : Word32) : cmdReserved c = 0 ↔ c.toNat / 2 ^ 26 = 0 := by
  rw [← cmdReserved_toNat]
  exact ⟨fun h => by rw [h]; rfl, fun h => BitVec.eq_of_toNat_eq h⟩

theorem getLsbD_eq_decide {w : Nat} (c : BitVec w) (k : Nat) : c.getLsbD k = decide (c.toNat / 2 ^ k % 2 = 1) := by
  rw [BitVec.getLsbD, Nat.testBit_eq_decide_div_mod_eq]

theorem cmdHasVol_eq (c : Word32) : cmdHasVol c = decide (c.toNat / 2 ^ 24 % 2 = 1) := getLsbD_eq_decide c 24

theorem cmdHasAmt_eq (c : Word32) : cmdHasAmt c = decide (c.toNat / 2 ^ 25 % 2 = 1) := getLsbD_eq_decide c 25

/-- A byte equals a literal exactly when their numbers agree. -/
theorem byte_eq_iff (b c : Byte) : b = c ↔ b.toNat = c.toNat := ⟨fun h => by rw [h], BitVec.eq_of_toNat_eq⟩

/-! ### The fields of a command word that was put together -/

theorem commandWord_toNat (op a n : Byte) (v m : Bool) :
    (commandWord op a n v m).toNat =
      op.toNat + 2 ^ 8 * a.toNat + 2 ^ 16 * n.toNat + 2 ^ 24 * v.toNat + 2 ^ 25 * m.toNat := by
  have := op.isLt
  have := a.isLt
  have := n.isLt
  have := Bool.toNat_le v
  have := Bool.toNat_le m
  rw [commandWord, BitVec.toNat_ofNat]
  omega

@[simp] theorem cmdOp_commandWord (op a n : Byte) (v m : Bool) : cmdOp (commandWord op a n v m) = op :=
  (Laws.TableMatch.commandWord_bytes op a n v m).2.2.2

@[simp] theorem cmdAddr_commandWord (op a n : Byte) (v m : Bool) : cmdAddr (commandWord op a n v m) = a :=
  (Laws.TableMatch.commandWord_bytes op a n v m).2.2.1

@[simp] theorem cmdNozzle_commandWord (op a n : Byte) (v m : Bool) : cmdNozzle (commandWord op a n v m) = n :=
  (Laws.TableMatch.commandWord_bytes op a n v m).2.1

@[simp] theorem cmdReserved_commandWord (op a n : Byte) (v m : Bool) : cmdReserved (commandWord op a n v m) = 0 := by
  have := op.isLt
  have := a.isLt
  have := n.isLt
  have := Bool.toNat_le v
  have := Bool.toNat_le m
  rw [cmdReserved_eq_zero, commandWord_toNat]
  omega

@[simp] theorem cmdHasVol_commandWord (op a n : Byte) (v m : Bool) : cmdHasVol (commandWord op a n v m) = v := by
  have := op.isLt
  have := a.isLt
  have := n.isLt
  rw [cmdHasVol_eq, commandWord_toNat]
  cases v <;> cases m <;> simp <;> omega

@[simp] theorem cmdHasAmt_commandWord (op a n : Byte) (v m : Bool) : cmdHasAmt (commandWord op a n v m) = m := by
  have := op.isLt
  have := a.isLt
  have := n.isLt
  rw [cmdHasAmt_eq, commandWord_toNat]
  cases v <;> cases m <;> simp <;> omega

namespace Machine

/-- The address check refuses exactly the addresses outside 0x50 to 0x6F, and only with `CHECK_ADDR` (R233). -/
theorem addrRefused_iff (cfg : Config) (a : Byte) :
    addrRefused cfg a = true ↔ cfg.checkAddr = true ∧ (a.toNat < 0x50 ∨ 0x6F < a.toNat) := by
  have hp : isPumpAddr a = true ↔ 0x50 ≤ a.toNat ∧ a.toNat ≤ 0x6F := by
    simp only [isPumpAddr, Bool.and_eq_true, decide_eq_true_eq]
    exact Iff.rfl
  rw [addrRefused, Bool.and_eq_true, Bool.not_eq_true', ← Bool.not_eq_true, hp]
  constructor
  · rintro ⟨h, hc⟩
    exact ⟨hc, by omega⟩
  · rintro ⟨hc, h⟩
    exact ⟨by omega, hc⟩

/-- The payload of a preset that fits, and the error of one that does not (R121). -/
theorem payloadPreset_cases (tc : Byte) (v : Nat) :
    (v ≤ 99999999 ∧ payloadPreset tc v =
      .ok ([tc, 0x04] ++
        [bcdByte (v / 1000000 % 100), bcdByte (v / 10000 % 100), bcdByte (v / 100 % 100), bcdByte (v % 100)])) ∨
    (99999999 < v ∧ payloadPreset tc v = .error .overflow) := by
  by_cases h : v ≤ 99999999
  · exact .inl ⟨h, by simp [payloadPreset, presetWidth, bcdEncode_four h]⟩
  · refine .inr ⟨by omega, ?_⟩
    rw [payloadPreset, presetWidth, bcdEncode_of_ge (by omega)]

/-- The payloads of an optional preset: none, one, or the overflow of the preset. -/
theorem presetPayloads_cases (tc : Byte) (p : Option Word32) :
    (p = none ∧ presetPayloads tc p = .ok []) ∨
    (∃ w, p = some w ∧ w.toNat ≤ 99999999 ∧ ∃ b, payloadPreset tc w.toNat = .ok b ∧ presetPayloads tc p = .ok [b]) ∨
    (∃ w, p = some w ∧ 99999999 < w.toNat ∧ presetPayloads tc p = .error .overflow) := by
  cases p with
  | none => exact .inl ⟨rfl, rfl⟩
  | some w =>
    rcases payloadPreset_cases tc w.toNat with ⟨h, he⟩ | ⟨h, he⟩
    · exact .inr (.inl ⟨w, rfl, h, _, he, by simp [presetPayloads, he]⟩)
    · exact .inr (.inr ⟨w, rfl, h, by simp [presetPayloads, he]⟩)

/-- AUTHORIZE answers its payloads when both presets answer theirs, and else the overflow of one of them. -/
theorem authorizePayloads_cases (n : Byte) (v m : Option Word32) :
    (∃ vs ms, presetPayloads 0x03 v = .ok vs ∧ presetPayloads 0x04 m = .ok ms ∧
      authorizePayloads n v m = .ok ([payloadNozzle n] ++ vs ++ ms ++ [payloadAuthorize])) ∨
    (((∃ w, v = some w ∧ 99999999 < w.toNat) ∨ (∃ w, m = some w ∧ 99999999 < w.toNat)) ∧
      authorizePayloads n v m = .error .overflow) := by
  have ok : ∀ tc p, (∃ ps, presetPayloads tc p = .ok ps) ∨
      ((∃ w, p = some w ∧ 99999999 < w.toNat) ∧ presetPayloads tc p = .error .overflow) := by
    intro tc p
    rcases presetPayloads_cases tc p with ⟨-, h⟩ | ⟨w, -, -, b, -, h⟩ | ⟨w, hw, hl, h⟩
    · exact .inl ⟨_, h⟩
    · exact .inl ⟨_, h⟩
    · exact .inr ⟨⟨w, hw, hl⟩, h⟩
  unfold authorizePayloads
  rcases ok 0x03 v with ⟨vs, hv⟩ | ⟨hw, hv⟩
  · rcases ok 0x04 m with ⟨ms, hm⟩ | ⟨hw, hm⟩
    · exact .inl ⟨vs, ms, hv, hm, by rw [hv, hm]⟩
    · exact .inr ⟨.inr hw, by rw [hv, hm]⟩
  · exact .inr ⟨.inl hw, by rw [hv]⟩

/-- Every instruction goes on. -/
theorem exec_next (i : Instr) (s : State) : ∃ t, exec i s = .next t := by
  cases i <;> simp only [exec, execRequestStatus, execStop, execPumpReset, execAuthorize, execCd1Status, execCd1Reset,
    execCd1Authorize, execCd1Stop, execCd2Nozzle, execCd3PresetVol, execCd4PresetAmt, execDc1Status, execDc1Volamt,
    execDc1Other, execDc3Nozprice, execRxIgnored, execRx, execTick, execReset, execSnap, Host.Outcome.next.injEq,
    exists_eq'] <;> (split <;> simp)

end Machine

end Sys2Proof
end

