-- ==== Sys2Proof/Laws/Parser.lean ====
section
/-! SUPPORT. The frame parser: what one candidate frame can answer, and what runs of bytes without the delimiter do. -/

namespace Sys2Proof.Machine

/-- A candidate with its last four bytes named. -/
theorem inspectFrame_append (limit : Option Nat) (body : List Byte) (lo hi e f : Byte) :
    inspectFrame limit (body ++ [lo, hi, e, f]) =
      if body.length < 3 then .error .short
      else if (crc16 body).toNat = 256 * hi.toNat + lo.toNat then inspectBody limit body
      else .error .crc := by
  have hl : (body ++ [lo, hi, e, f]).length - 4 = body.length := by simp
  rw [inspectFrame, hl]
  simp only [List.drop_left, List.take_left, List.length_append, List.length_cons, List.length_nil, minFrame]
  by_cases h3 : body.length < 3
  · rw [if_pos (by omega), if_pos h3]
  · rw [if_neg (by omega), if_neg h3, ← trailerValue_toNat]
    by_cases hc : crc16 body = trailerValue lo hi
    · rw [if_neg (by simpa using hc), if_pos (by rw [hc])]
    · rw [if_pos hc, if_neg (fun h => hc (BitVec.eq_of_toNat_eq h))]

/-- Every list of four or more bytes ends in four bytes. -/
theorem exists_last_four {f : List Byte} (h : 4 ≤ f.length) : ∃ body lo hi e x, f = body ++ [lo, hi, e, x] := by
  have hd : (f.drop (f.length - 4)).length = 4 := by simp; omega
  match hm : f.drop (f.length - 4), hd with
  | [lo, hi, e, x], _ => exact ⟨f.take (f.length - 4), lo, hi, e, x, by rw [← hm, List.take_append_drop]⟩

/-- A candidate is too short, or fails its CRC, or is judged by its body. -/
theorem inspectFrame_cases (limit : Option Nat) (f : List Byte) :
    (f.length < 7 ∧ inspectFrame limit f = .error .short) ∨
    (∃ body lo hi e x, f = body ++ [lo, hi, e, x] ∧ 3 ≤ body.length ∧
      (((crc16 body).toNat ≠ 256 * hi.toNat + lo.toNat ∧ inspectFrame limit f = .error .crc) ∨
       ((crc16 body).toNat = 256 * hi.toNat + lo.toNat ∧ inspectFrame limit f = inspectBody limit body))) := by
  by_cases h : f.length < 7
  · exact .inl ⟨h, if_pos h⟩
  · obtain ⟨body, lo, hi, e, x, rfl⟩ := exists_last_four (f := f) (by omega)
    have h3 : 3 ≤ body.length := by
      simp only [List.length_append, List.length_cons, List.length_nil] at h
      omega
    refine .inr ⟨body, lo, hi, e, x, rfl, h3, ?_⟩
    rw [inspectFrame_append, if_neg (by omega)]
    by_cases hc : (crc16 body).toNat = 256 * hi.toNat + lo.toNat
    · exact .inr ⟨hc, by rw [if_pos hc]⟩
    · exact .inl ⟨hc, by rw [if_neg hc]⟩

/-- What the data bytes of a form supply: a status; a volume and an amount; or a nozzle, its flag and a price. -/
theorem formDelta_ok {limit : Option Nat} {w : WireForm} {data : List Byte} {d : Entry}
    (h : formDelta limit w data = .ok d) :
    (∃ b, w = .dc1Status ∧ data[1]? = some b ∧ d = { Entry.empty with status := some b }) ∨
    (∃ v m, w = .dc1Volamt ∧ 9 ≤ data.length ∧ bcdDecode (slice data 1 5) = some v ∧
      bcdDecode (slice data 5 9) = some m ∧ d = { Entry.empty with volume := some v, amount := some m }) ∨
    (∃ d0 ns b more p, w = .dc3Nozprice ∧ data = d0 :: ns :: b :: more ∧ bcdDecode (b :: more) = some p ∧
      priceAllowed limit p = true ∧
      d = { Entry.empty with nozzle := some (nozzleNumber ns), inUse := some (nozzleInUse ns), price := some p }) := by
  cases w with
  | dc1Status =>
    simp only [formDelta, deltaStatus] at h
    split at h
    · next b hb => cases h; exact .inl ⟨b, rfl, hb, rfl⟩
    · cases h
  | dc1Volamt =>
    simp only [formDelta, deltaVolamt] at h
    split at h
    · cases h
    · next hl =>
      split at h
      · next v m hv hm => cases h; exact .inr (.inl ⟨v, m, rfl, by omega, hv, hm, rfl⟩)
      · cases h
  | dc1Other =>
    simp only [formDelta, deltaOther] at h
    split at h <;> cases h
  | dc3Nozprice =>
    simp only [formDelta, deltaNozprice] at h
    split at h
    · next d0 ns b more =>
      split at h
      · cases h
      · next p hp =>
        split at h
        · next hl => cases h; exact .inr (.inr ⟨_, ns, b, more, p, rfl, rfl, hp, hl, rfl⟩)
        · cases h
    · cases h
  | ignored => cases h

/-- A body that reports has its four header bytes, and its form supplies the delta. -/
theorem inspectBody_ok {limit : Option Nat} {body : List Byte} {a : Byte} {d : Entry}
    (h : inspectBody limit body = .ok (a, d)) :
    ∃ c tc l data, body = a :: c :: tc :: l :: data ∧ formDelta limit (classify tc l data) data = .ok d := by
  unfold inspectBody at h
  split at h
  · next addr c tc l data =>
    split at h
    · next d' hd => cases h; exact ⟨c, tc, l, data, rfl, hd⟩
    · cases h
  · cases h

/-- A candidate that reports has a body that does. -/
theorem inspectFrame_ok {limit : Option Nat} {f : List Byte} {a : Byte} {d : Entry}
    (h : inspectFrame limit f = .ok (a, d)) :
    ∃ tc l data, formDelta limit (classify tc l data) data = .ok d := by
  rcases inspectFrame_cases limit f with ⟨-, he⟩ | ⟨body, lo, hi, e, x, -, -, ⟨-, he⟩ | ⟨-, he⟩⟩
  · rw [he] at h; cases h
  · rw [he] at h; cases h
  · rw [he] at h
    obtain ⟨c, tc, l, data, -, hd⟩ := inspectBody_ok h
    exact ⟨tc, l, data, hd⟩

/-! ### Runs of bytes -/

/-- A chunk in two parts is the one and then the other. -/
theorem execRx_append (s : State) (c d : List Byte) : execRx (c ++ d) s = execRx d (c.foldl rxByte s) := by
  rw [execRx, execRx, List.foldl_append]

/-- Bytes without a delimiter, where all fit, are appended. -/
theorem rxBytes_fit (s : State) (c : List Byte) (hs : s.rxState = .collecting) (hc : frameEnd ∉ c)
    (hl : s.buf.length + c.length ≤ s.cfg.bufCap - 1) : c.foldl rxByte s = { s with buf := s.buf ++ c } := by
  induction c generalizing s with
  | nil => simp
  | cons b c ih =>
    rw [List.mem_cons, not_or] at hc
    rw [List.length_cons] at hl
    have hb : rxByte s b = { s with buf := s.buf ++ [b] } := by
      simp only [rxByte, hs]
      rw [if_neg (Ne.symm hc.1), if_neg (by omega)]
    rw [List.foldl_cons, hb, ih { s with buf := s.buf ++ [b] } hs hc.2 (by simp; omega)]
    simp

/-- Bytes without a delimiter are dropped while the receiver discards. -/
theorem rxBytes_discard (s : State) (c : List Byte) (hs : s.rxState = .discard) (hc : frameEnd ∉ c) :
    c.foldl rxByte s = s := by
  induction c with
  | nil => rfl
  | cons b c ih =>
    rw [List.mem_cons, not_or] at hc
    have hb : rxByte s b = s := by
      simp only [rxByte, hs]
      rw [if_neg (Ne.symm hc.1)]
    rw [List.foldl_cons, hb, ih hc.2]

/-- Bytes without a delimiter, more than fit, leave the receiver discarding with an empty buffer. -/
theorem rxBytes_overflow (s : State) (c : List Byte) (hs : s.rxState = .collecting) (hc : frameEnd ∉ c)
    (h0 : s.buf.length ≤ s.cfg.bufCap - 1) (hl : s.cfg.bufCap - 1 < s.buf.length + c.length) :
    c.foldl rxByte s = { s with buf := [], rxState := .discard } := by
  induction c generalizing s with
  | nil => simp at hl; omega
  | cons b c ih =>
    rw [List.mem_cons, not_or] at hc
    rw [List.length_cons] at hl
    rw [List.foldl_cons]
    by_cases hf : s.buf.length = s.cfg.bufCap - 1
    · have hb : rxByte s b = { s with buf := [], rxState := .discard } := by
        simp only [rxByte, hs]
        rw [if_neg (Ne.symm hc.1), if_pos hf]
      rw [hb, rxBytes_discard _ c rfl hc.2]
    · have hb : rxByte s b = { s with buf := s.buf ++ [b] } := by
        simp only [rxByte, hs]
        rw [if_neg (Ne.symm hc.1), if_neg hf]
      rw [hb, ih { s with buf := s.buf ++ [b] } hs hc.2 (by simp; omega) (by simp; omega)]

/-- What one byte changes: the receive state, the buffer, the table and the events. -/
theorem rxByte_eq (s : State) (b : Byte) :
    rxByte s b =
      { s with
        rxState := (rxByte s b).rxState, buf := (rxByte s b).buf, snap := (rxByte s b).snap,
        events := (rxByte s b).events } := by
  obtain ⟨h1, h2, h3, h4, h5⟩ := rxByte_frame s b
  cases hr : rxByte s b
  rw [hr] at h1 h2 h3 h4 h5
  simp_all

/-- One byte does not look at the waiting inputs. -/
theorem rxByte_inputs (s : State) (b : Byte) (is : List Input) :
    rxByte { s with inputs := is } b = { rxByte s b with inputs := is } := by
  unfold rxByte State.decodeFrame
  cases hs : s.rxState <;> dsimp only
  · split
    · split <;> rfl
    · split <;> simp
  · split <;> simp [hs]

/-- A chunk does not look at the waiting inputs. -/
theorem rxBytes_inputs (s : State) (c : List Byte) (is : List Input) :
    c.foldl rxByte { s with inputs := is } = { c.foldl rxByte s with inputs := is } := by
  induction c generalizing s with
  | nil => rfl
  | cons b c ih => rw [List.foldl_cons, List.foldl_cons, rxByte_inputs, ih]

/-- A chunk leaves the parameters and the waiting inputs. -/
theorem rxBytes_frame (s : State) (c : List Byte) :
    (c.foldl rxByte s).cfg = s.cfg ∧ (c.foldl rxByte s).inputs = s.inputs := by
  induction c generalizing s with
  | nil => exact ⟨rfl, rfl⟩
  | cons b c ih =>
    obtain ⟨h1, -, h2, -⟩ := rxByte_frame s b
    rw [List.foldl_cons, (ih _).1, (ih _).2]
    exact ⟨h1, h2⟩

/-! ### Runs of steps -/

theorem run_zero (s : State) : Sys2Proof.core.run 0 s = (.next s : Host.Outcome State Fault Refusal) := rfl

/-- A run of one more step. -/
theorem core_run_succ (M : Host.Core) (k : Nat) (s : M.State) :
    M.run (k + 1) s =
      match M.step s with
      | .next t => M.run k t
      | .fault f => .fault f
      | .refused r => .refused r := rfl

/-- A run of one more step, over the model's own types. -/
theorem run_succ (k : Nat) (s : State) :
    Sys2Proof.core.run (k + 1) s =
      (match step s with
      | .next t => Sys2Proof.core.run k t
      | .fault f => .fault f
      | .refused r => .refused r : Host.Outcome State Fault Refusal) := by
  refine (core_run_succ Sys2Proof.core k s).trans ?_
  have h : Sys2Proof.core.step s = step s := rfl
  rw [h]
  cases step s <;> rfl

end Sys2Proof.Machine
end

