-- ==== Sys2Proof/Tests/Slice0.lean ====
section
/-! SUPPORT. The model's own tests: the well-formedness checks refuse, written-out words decode, one step on small
states against 95_test_vectors.md, and a witness for the hypotheses of each statement. -/

set_option maxRecDepth 20000

namespace Sys2Proof.Tests

open Sys2Proof Sys2Proof.Machine Sys2Proof.Rules

/-! ### Helpers -/

/-- The next state, if there is one. -/
def after (o : Host.Outcome State Fault Refusal) : Option State :=
  match o with
  | .next t => some t
  | _ => none

/-- The reset state with some inputs waiting. -/
def given (inputs : List Input) : State := { State.reset with inputs := inputs }

/-- The reset state with the address check on. -/
def checked : State := { State.reset with cfg := { Config.standard with checkAddr := true } }

/-! ### Well-formedness: one ill-formed term for each check -/

theorem test_form_preset_volume : ¬(Instr.cd3PresetVol 0x55 100000000).WellFormed := by decide
theorem test_form_preset_amount : ¬(Instr.cd4PresetAmt 0x55 100000000).WellFormed := by decide
theorem test_form_status_discriminator : ¬(Instr.dc1Status 0x52 0x11 2 [0x01, 0x04]).WellFormed := by decide
theorem test_form_status_len : ¬(Instr.dc1Status 0x52 0x11 1 [0x00, 0x04]).WellFormed := by decide
theorem test_form_volamt_discriminator : ¬(Instr.dc1Volamt 0x52 0x11 9 [0x00]).WellFormed := by decide
theorem test_form_volamt_len : ¬(Instr.dc1Volamt 0x52 0x11 7 [0x04]).WellFormed := by decide
theorem test_form_other_is_status : ¬(Instr.dc1Other 0x52 0x11 2 [0x00]).WellFormed := by decide
theorem test_form_other_is_volamt : ¬(Instr.dc1Other 0x52 0x11 8 [0x04]).WellFormed := by decide
theorem test_form_ignored_dc1 : ¬(Instr.rxIgnored 0x52 0x11 0x81 2 []).WellFormed := by decide
theorem test_form_ignored_dc3 : ¬(Instr.rxIgnored 0x52 0x11 0x83 2 []).WellFormed := by decide
theorem test_form_config : ¬Config.WellFormed { Config.standard with bufCap := 16 } := by decide

/-! ### Decoding: every constructor from a word written out from R71, R78 to R83, R90 -/

-- 0x55 in bits 15..8, the opcode in bits 7..0 (R71, R72; V1.3).
theorem test_decode_request_status : decode (.input (.cmd 0x00005501 7 7)) = .ok (.requestStatus 0x55) := by decide
-- Bits 25..16 set are ignored (R74; V2.5).
theorem test_decode_stop : decode (.input (.cmd 0x03FF5503 7 7)) = .ok (.stop 0x55) := by decide
theorem test_decode_pump_reset : decode (.input (.cmd 0x00006F04 0 0)) = .ok (.pumpReset 0x6F) := by decide
-- HAS_AMT in bit 25, HAS_VOL in bit 24, the nozzle in bits 23..16 (V2.4).
theorem test_decode_authorize :
    decode (.input (.cmd 0x02036002 5 99999999)) = .ok (.authorize 0x60 3 none (some 99999999)) := by decide
theorem test_decode_authorize_volume :
    decode (.input (.cmd 0x01005102 1 5)) = .ok (.authorize 0x51 0 (some 1) none) := by decide
theorem test_decode_cd1 :
    decode (.payload 0x55 [0x01, 0x01, 0x00]) = .ok (.cd1Status 0x55) ∧
    decode (.payload 0x55 [0x01, 0x01, 0x05]) = .ok (.cd1Reset 0x55) ∧
    decode (.payload 0x55 [0x01, 0x01, 0x06]) = .ok (.cd1Authorize 0x55) ∧
    decode (.payload 0x55 [0x01, 0x01, 0x08]) = .ok (.cd1Stop 0x55) := by decide
theorem test_decode_cd2 : decode (.payload 0x53 [0x02, 0x01, 0xFA]) = .ok (.cd2Nozzle 0x53 0xFA) := by decide
theorem test_decode_cd3 :
    decode (.payload 0x55 [0x03, 0x04, 0x99, 0x99, 0x99, 0x99]) = .ok (.cd3PresetVol 0x55 99999999) := by decide
theorem test_decode_cd4 :
    decode (.payload 0x55 [0x04, 0x04, 0x00, 0x25, 0x00, 0x00]) = .ok (.cd4PresetAmt 0x55 250000) := by decide
theorem test_decode_dc1_status :
    decode (.body [0x52, 0x11, 0x81, 0x02, 0x00, 0x04]) = .ok (.dc1Status 0x52 0x11 2 [0x00, 0x04]) := by decide
theorem test_decode_dc1_volamt :
    decode (.body [0x52, 0x11, 0x81, 0x08, 0x04]) = .ok (.dc1Volamt 0x52 0x11 8 [0x04]) := by decide
-- LEN 7 fails the test of the volume form (V2.6); a body with no data is no form of 0x81.
theorem test_decode_dc1_other :
    decode (.body [0x52, 0x11, 0x81, 0x07, 0x04]) = .ok (.dc1Other 0x52 0x11 7 [0x04]) ∧
    decode (.body [0x52, 0x11, 0x81, 0x00]) = .ok (.dc1Other 0x52 0x11 0 []) := by decide
theorem test_decode_dc3 :
    decode (.body [0x53, 0x11, 0x83, 0x06, 0x00, 0x13, 0x01]) =
      .ok (.dc3Nozprice 0x53 0x11 6 [0x00, 0x13, 0x01]) := by decide
theorem test_decode_ignored :
    decode (.body [0x52, 0x11, 0x82, 0x02, 0x00]) = .ok (.rxIgnored 0x52 0x11 0x82 2 [0x00]) := by decide
theorem test_decode_ports :
    decode (.input (.rx [0xFA])) = .ok (.rx [0xFA]) ∧ decode (.input .tick) = .ok .tick ∧
    decode (.input .rst) = .ok .reset ∧ decode (.input (.snap 0x20)) = .ok (.snap 0x20) := by decide
theorem test_decode_rejects :
    decode (.input (.cmd 0x04005501 0 0)) = .error .reservedBits ∧
    decode (.input (.cmd 0x00005505 0 0)) = .error .unassignedOpcode ∧
    decode (.body [0x52, 0x11, 0x81]) = .error .shortBody ∧
    decode (.payload 0x55 [0x01, 0x01, 0x07]) = .error .unknownPayload ∧
    decode (.payload 0x55 [0x03, 0x04, 0x00, 0x00, 0x0A, 0x00]) = .error .payloadDigits := by decide
theorem test_table_words :
    decodeTableWord 32 0x00000002 = some (.authorize 0 0 none none) ∧
    decodeTableWord 24 0x010105 = some (.cd1Reset 0) ∧
    decodeTableWord 48 0x030400000000 = some (.cd3PresetVol 0 0) ∧
    decodeTableWord 24 0x830000 = some (.dc3Nozprice 0 0 0 [0, 0, 0, 0, 0, 0, 0, 0, 0]) ∧
    decodeTableWord 8 0 = some (.rx []) := by decide

/-! ### The pure units (V2.1 to V2.3) -/

theorem test_crc_check_value : crc16 [0x31, 0x32, 0x33, 0x34, 0x35, 0x36, 0x37, 0x38, 0x39] = 0x29B1 := by decide
theorem test_crc_noise_prefix : crc16 [0x00, 0x52, 0x11, 0x81, 0x02, 0x00, 0x04] = 0x2179 := by decide
theorem test_bcd_encode :
    bcdEncode 250000 4 = some [0x00, 0x25, 0x00, 0x00] ∧ bcdEncode 100000000 4 = none ∧
    bcdEncode 159 2 = some [0x01, 0x59] := by decide
theorem test_bcd_decode :
    bcdDecode [0x00, 0x00, 0x12, 0x34] = some 1234 ∧ bcdDecode [0x0A] = none ∧ bcdDecode [0xA0] = none ∧
    bcdDecode [] = none := by decide

/-! ### One step of each input (V2.4 to V2.9) -/

theorem test_request_status :
    (after (step (given [.cmd 0x00005501 0 0]))).map (fun t => (t.tx, t.result, t.responses)) =
      some ([0x55, 0x11, 0x01, 0x01, 0x00, 0x7B, 0x4E, 0x03, 0xFA], 0x00, [.result 0x00]) := by decide
theorem test_stop :
    (after (step (given [.cmd 0x00005003 0 0]))).map (fun t => t.tx) =
      some [0x50, 0x11, 0x01, 0x01, 0x08, 0x24, 0xEC, 0x03, 0xFA] := by decide
theorem test_pump_reset :
    (after (step (given [.cmd 0x00006F04 0 0]))).map (fun t => t.tx) =
      some [0x6F, 0x11, 0x01, 0x01, 0x05, 0x9E, 0x54, 0x03, 0xFA] := by decide
theorem test_authorize :
    (after (step (given [.cmd 0x03025502 4000 250000]))).map (fun t => t.tx) =
      some ([0x55, 0x11, 0x02, 0x01, 0x02, 0x69, 0x37, 0x03, 0xFA] ++
        [0x55, 0x11, 0x03, 0x04, 0x00, 0x00, 0x40, 0x00, 0xD4, 0x77, 0x03, 0xFA] ++
        [0x55, 0x11, 0x04, 0x04, 0x00, 0x25, 0x00, 0x00, 0x6F, 0xDF, 0x03, 0xFA] ++
        [0x55, 0x11, 0x01, 0x01, 0x06, 0xBD, 0x2E, 0x03, 0xFA]) := by decide
theorem test_authorize_overflow :
    (after (step (given [.cmd 0x02015502 0 100000000]))).map (fun t => (t.tx, t.result)) = some ([], 0x02) := by decide
theorem test_illegal_before_address :
    (after (step { checked with inputs := [.cmd 0x05012002 100000000 0] })).map (fun t => (t.tx, t.result)) =
      some ([], 0x01) := by decide
theorem test_address_before_overflow :
    (after (step { checked with inputs := [.cmd 0x01012002 100000000 0] })).map (fun t => (t.tx, t.result)) =
      some ([], 0x03) := by decide
theorem test_address_ends_of_range :
    addrRefused checked.cfg 0x4F = true ∧ addrRefused checked.cfg 0x50 = false ∧
    addrRefused checked.cfg 0x6F = false ∧ addrRefused checked.cfg 0x70 = true := by decide
theorem test_cd_frames :
    (after (exec (.cd2Nozzle 0x53 2) State.reset)).map (fun t => t.tx) =
      some [0x53, 0x11, 0x02, 0x01, 0x02, 0xEC, 0xFA, 0x03, 0xFA] ∧
    (after (exec (.cd1Authorize 0x50) State.reset)).map (fun t => t.tx) =
      some [0x50, 0x11, 0x01, 0x01, 0x06, 0xEA, 0x0D, 0x03, 0xFA] := by decide
theorem test_cd_presets :
    (after (exec (.cd3PresetVol 0x51 1) State.reset)).map (fun t => t.tx) =
      some [0x51, 0x11, 0x03, 0x04, 0x00, 0x00, 0x00, 0x01, 0x54, 0x65, 0x03, 0xFA] ∧
    (after (exec (.cd4PresetAmt 0x52 1234) State.reset)).map (fun t => t.tx) =
      some [0x52, 0x11, 0x04, 0x04, 0x00, 0x00, 0x12, 0x34, 0x87, 0x66, 0x03, 0xFA] := by decide
theorem test_rx_status :
    (after (step (given [.rx [0x52, 0x11, 0x81, 0x02, 0x00, 0x04, 0xA7, 0xDE, 0x03, 0xFA]]))).map
      (fun t => (t.snap, t.events.map (fun ev => ev.addr), t.buf)) =
      some ([(0x52, { Entry.empty with status := some 4 })], [0x52], []) := by decide
theorem test_rx_volume :
    inspectFrame none
      [0x52, 0x11, 0x81, 0x08, 0x04, 0x00, 0x00, 0x12, 0x34, 0x00, 0x05, 0x67, 0x89, 0x0C, 0x30, 0x03, 0xFA] =
      .ok (0x52, { Entry.empty with volume := some 1234, amount := some 56789 }) := by decide
theorem test_rx_nozzle_price :
    inspectFrame none [0x53, 0x11, 0x83, 0x05, 0x00, 0xE2, 0x12, 0x34, 0x35, 0x59, 0x03, 0xFA] =
      .ok (0x53, { Entry.empty with nozzle := some 2, inUse := some false, price := some 1234 }) := by decide
theorem test_rx_price_limit :
    inspectFrame (some 9999) [0x53, 0x11, 0x83, 0x05, 0x00, 0x13, 0x01, 0x00, 0x00, 0x47, 0xC4, 0x03, 0xFA] =
      .error .range ∧
    inspectFrame (some 9999) [0x53, 0x11, 0x83, 0x04, 0x00, 0x13, 0x99, 0x99, 0x23, 0x84, 0x03, 0xFA] =
      .ok (0x53, { Entry.empty with nozzle := some 3, inUse := some true, price := some 9999 }) := by decide
theorem test_rx_drops :
    inspectFrame none [0x52, 0x11, 0x81, 0x01, 0x00, 0x04, 0xF7, 0x87, 0x03, 0xFA] = .error .ignored ∧
    inspectFrame none [0x52, 0x11, 0x81, 0x02, 0x00, 0xA6, 0x47, 0x03, 0xFA] = .error .missing ∧
    inspectFrame none [0x52, 0x11, 0x81, 0xD9, 0x4D, 0x03, 0xFA] = .error .missing ∧
    inspectFrame none [0x53, 0x11, 0x83, 0x04, 0x00, 0x13, 0x1B, 0x00, 0x49, 0xEB, 0x03, 0xFA] = .error .badBcd ∧
    inspectFrame none [0x52, 0x11, 0x81, 0x02, 0x00, 0x04, 0xDE, 0xA7, 0x03, 0xFA] = .error .crc ∧
    inspectFrame none [0x01, 0x02, 0x03, 0xFA] = .error .short := by decide
-- With BUF_CAP = 17 the seventeenth byte overflows; the next 0xFA resynchronises (R172, R173).
theorem test_rx_overflow :
    let small := { State.reset with cfg := { Config.standard with bufCap := 17 } }
    (after (exec (.rx (List.replicate 16 0x11)) small)).map (fun t => (t.rxState, t.buf.length)) =
      some (.collecting, 16) ∧
    (after (exec (.rx (List.replicate 17 0x11)) small)).map (fun t => (t.rxState, t.buf)) = some (.discard, []) ∧
    after (exec (.rx (List.replicate 17 0x11 ++ [0xFA])) small) = some small := by decide
theorem test_merge_keeps_other_fields :
    snapMerge [(0x52, { Entry.empty with status := some 4 })] 0x52 { Entry.empty with volume := some 1, amount := some 2 } =
      [(0x52, { Entry.empty with status := some 4, volume := some 1, amount := some 2 })] := by decide
theorem test_snap_words :
    (entryW0 { status := some 5, volume := some 1234, amount := some 56789, nozzle := none, inUse := none, price := none },
      entryW0 { Entry.empty with nozzle := some 3, inUse := some true, price := some 159 }) =
      (0x00000507, 0x00130038) := by decide
theorem test_snap_unwritten :
    (after (exec (.snap 0x53) State.reset)).map (fun t => t.responses) = some [.snap 0x53 Entry.empty] := by decide
theorem test_reset_keeps_streams :
    after (exec .reset { State.reset with rxState := .discard, buf := [1], result := 1, tx := [2] }) =
      some { State.reset with tx := [2] } := by decide
theorem test_small_buffer_refused :
    (match step { State.reset with cfg := { Config.standard with bufCap := 16 } } with
      | .refused r => some r | _ => none) = some (.configRejected 16) := by decide
theorem test_with_fetch_word :
    (after (step (State.reset.withFetchWord 24 0x810200))).map (fun t => t.snap) =
      some [(0x00, { Entry.empty with status := some 0 })] ∧
    (after (step (State.reset.withFetchWord 24 0x010108))).map (fun t => t.tx.length) = some 9 := by decide
-- Lines of the programs P2, P3 and P5 (95_test_vectors.md section 3).
theorem test_assembler_text :
    asmParse "STOP 0x70".toList = some (some (.stop 0x70)) ∧
    asmParse "AUTHORIZE 0x55, nozzle=2, volume=4000, amount=250000".toList =
      some (some (.authorize 0x55 (some 2) (some 4000) (some 250000))) ∧
    asmParse "CMDW 0x04005501, 0, 0   ; reserved bit 26 set".toList = some (some (.cmdw 0x04005501 0 0)) ∧
    asmParse "RXF 0x52, 0x81, 2, 0x00, 0x04 ; ctrl=0x00".toList =
      some (some (.rxf 0x52 0x81 2 [0x00, 0x04] (some 0x00))) := by decide

/-! ### Witnesses: a state and operands that meet the hypotheses of each statement -/

/-- A frame of seventeen bytes, the longest fixed layout (R9). -/
def volumeFrame : List Byte :=
  [0x52, 0x11, 0x81, 0x09, 0x04, 0x00, 0x00, 0x12, 0x34, 0x00, 0x05, 0x67, 0x89, 0x49, 0x5F, 0x03, 0xFA]

theorem witness_DecodeOfEncodeIsTheInstruction : (Instr.cd3PresetVol 0x55 99999999).WellFormed := by decide
theorem witness_DecodedFormsAreWellFormedAndReencode :
    decode (.payload 0x55 [0x01, 0x01, 0x08]) = .ok (.cd1Stop 0x55) ∧
    ∀ cmd opa opb, Code.payload 0x55 [0x01, 0x01, 0x08] ≠ .input (.cmd cmd opa opb) := ⟨by decide, by simp⟩
theorem witness_StepRunsTheDecodedInput :
    17 ≤ (given [.tick]).cfg.bufCap ∧ (given [.tick]).inputs = .tick :: [] ∧ decodeInput .tick = .ok .tick := by decide
theorem witness_StepWithoutInputIsIdle : 17 ≤ State.reset.cfg.bufCap ∧ State.reset.inputs = [] := by decide
theorem witness_StepStopsOnlyOnASmallBuffer :
    { Config.standard with bufCap := 16 }.bufCap < 17 ∧ 17 ≤ { Config.standard with bufCap := 17 }.bufCap := by decide
theorem witness_AcceptedConfigurationNeverStops : State.reset.cfg.WellFormed := by decide
theorem witness_IllegalCommandWordWritesOnlyResult :
    17 ≤ (given [.cmd 0x04005501 0 0]).cfg.bufCap ∧
    (given [.cmd 0x04005501 0 0]).inputs = .cmd 0x04005501 0 0 :: [] ∧
    (0x04005501#32).toNat / 2 ^ 26 ≠ 0 ∧ (0x00005500#32).toNat % 256 = 0 ∧ 5 ≤ (0x00005505#32).toNat % 256 := by decide
theorem witness_CommandStepFollowsTheHostCommandAlgorithm :
    17 ≤ (given [.cmd 0x00005501 0 0]).cfg.bufCap ∧
    (given [.cmd 0x00005501 0 0]).inputs = .cmd 0x00005501 0 0 :: [] := by decide
theorem witness_FailedCommandWritesNoFrame :
    17 ≤ (given [.cmd 0x01015502 100000000 0]).cfg.bufCap ∧
    (given [.cmd 0x01015502 100000000 0]).inputs = .cmd 0x01015502 100000000 0 :: [] ∧
    (0x01015502#32).toNat % 256 = 2 := by decide
theorem witness_sendable : sendable checked 0x50 ∧ sendable checked 0x6F ∧ sendable State.reset 0x10 :=
  ⟨fun _ => by decide, fun _ => by decide, fun h => absurd h (by decide)⟩
theorem witness_AuthorizeCompletes :
    sendable checked 0x50 ∧ (∀ w, some (99999999 : Word32) = some w → w.toNat ≤ 99999999) := by
  refine ⟨fun _ => by decide, fun w h => ?_⟩
  cases h
  decide
theorem witness_AuthorizeOverflowWritesOnlyResult :
    sendable checked 0x50 ∧ ∃ w, some (100000000 : Word32) = some w ∧ 99999999 < w.toNat :=
  ⟨fun _ => by decide, _, rfl, by decide⟩
theorem witness_AddressCheckRaisesErrAddr :
    checked.cfg.checkAddr = true ∧ ((0x4F : Byte).toNat < 0x50) ∧ (0x6F < (0x70 : Byte).toNat) ∧
    State.reset.cfg.checkAddr = false := by decide
theorem witness_AddressCheckRaisesErrAddr_in_range :
    checked.cfg.checkAddr = true ∧ 0x50 ≤ (0x50 : Byte).toNat ∧ (0x50 : Byte).toNat ≤ 0x6F ∧
    0x50 ≤ (0x6F : Byte).toNat ∧ (0x6F : Byte).toNat ≤ 0x6F ∧
    (Instr.stop 0x50 = .requestStatus 0x50 ∨ Instr.stop 0x50 = .stop 0x50) := by decide
theorem witness_PresetWireFrames : 99999999 ≤ 99999999 ∧ 99999999 < 100000000 := by decide
theorem witness_HostCommandsRunTheirWireForms :
    sendable checked 0x6F ∧ wireForms (.authorize 0x6F 1 (some 0) none) ≠ [] ∧
    (∀ w, some (0 : Word32) = some w → w.toNat ≤ 99999999) ∧
    (∀ w, (none : Option Word32) = some w → w.toNat ≤ 99999999) := by
  refine ⟨fun _ => by decide, by decide, fun w h => ?_, fun w h => nomatch h⟩
  cases h
  decide
theorem witness_StatusReportCompletes : ([0x00, 0xFF] : List Byte)[1]? = some 0xFF := by decide
theorem witness_VolumeReportCompletes : bcd4 99999999 = [0x99, 0x99, 0x99, 0x99] ∧ bcd4 0 = [0, 0, 0, 0] := by decide
theorem witness_NozzlePriceReportCompletes :
    bcdDecode [0x99, 0x99] = some 9999 ∧
    ∀ limit, ({ Config.standard with priceLimit := some 9999 }).priceLimit = some limit → 9999 ≤ limit :=
  ⟨by decide, fun l h => by cases h; decide⟩
theorem witness_DroppedReportsChangeNothing :
    ([0x00] : List Byte).length < 2 ∧ (List.replicate 8 (0 : Byte)).length < 9 ∧
    bcdDecode (([0x04, 0x00, 0x00, 0x0A, 0x00, 0x00, 0x00, 0x00, 0x01].drop 1).take 4) = none ∧
    bcdDecode (([0x04, 0x00, 0x00, 0x00, 0x00, 0x00, 0x00, 0x00, 0xA1].drop 5).take 4) = none ∧
    ([0x00, 0x13] : List Byte).length < 3 ∧ bcdDecode ([0x00, 0x13, 0x1B].drop 2) = none ∧
    bcdDecode ([0x00, 0x13, 0x01, 0x00, 0x00].drop 2) = some 10000 ∧ 9999 < 10000 := by decide
theorem witness_ReceiveMachineFollowsItsRules :
    State.reset.rxState = .collecting ∧ (0x11 : Byte) ≠ 0xFA ∧ State.reset.buf.length ≠ State.reset.cfg.bufCap - 1 ∧
    (List.replicate 63 (0x11 : Byte)).length = State.reset.cfg.bufCap - 1 ∧
    ({ State.reset with rxState := .discard }).rxState = .discard ∧
    inspectFrame none ([0x01, 0x02, 0x03] ++ [0xFA]) = .error .short ∧
    inspectFrame none ([0x52, 0x11, 0x81, 0x02, 0x00, 0x04, 0xA7, 0xDE, 0x03] ++ [0xFA]) =
      .ok (0x52, { Entry.empty with status := some 4 }) := by decide
theorem witness_ChunkBoundariesDoNotMatter :
    17 ≤ (given [.rx [0x52], .rx []]).cfg.bufCap ∧
    (given [.rx [0x52], .rx []]).inputs = ([[0x52], []] : List (List Byte)).map .rx := by decide
theorem witness_ReceivedFrameRunsItsInstruction :
    receivable State.reset [0x52, 0x11, 0x81, 0x02, 0x00, 0x04] 0x03 ∧
    decodeBody [0x52, 0x11, 0x81, 0x02, 0x00, 0x04] = .ok (.dc1Status 0x52 0x11 2 [0x00, 0x04]) :=
  ⟨⟨by decide, by decide, by decide, by decide⟩, by decide⟩
theorem witness_OneBitErrorIsRejected :
    7 < 8 ∧ 2 ≤ ([0x03, 0xFA] : List Byte).length ∧
    7 ≤ ([0x52, 0x11, 0x81, 0x02, 0x00, 0x04, 0xA7] : List Byte).length + 1 + ([0x03, 0xFA] : List Byte).length ∧
    inspectFrame none ([0x52, 0x11, 0x81, 0x02, 0x00, 0x04, 0xA7] ++ [0xDE] ++ [0x03, 0xFA]) ≠ .error .crc := by decide
theorem witness_ChecksumDecidesBeforeTheBody : 3 ≤ ([0x52, 0x11, 0x81] : List Byte).length := by decide
theorem witness_CandidatesBelowEightBytesAreDropped :
    ([0x52, 0x11, 0x81, 0xD9, 0x4D, 0x03, 0xFA] : List Byte).length < 8 := by decide
theorem witness_UnrecognisedFramesAreIgnored :
    ([0x96, 0xED, 0x03, 0xFA] : List Byte).length = 4 ∧ ((0x82 : Byte) ≠ 0x81 ∧ (0x82 : Byte) ≠ 0x83) ∧
    ((0x01 : Byte) ≠ 0x00 ∧ (0x01 : Byte) ≠ 0x04) ∧ (0x01 : Byte).toNat < 2 ∧ (0x07 : Byte).toNat < 8 := by decide
theorem witness_DroppedFrameDoesNotAffectTheNext :
    State.reset.rxState = .collecting ∧ State.reset.buf = [] ∧ (0xFA : Byte) ∉ ([0x03] : List Byte) ∧
    ([0x03] : List Byte).length + 1 ≤ State.reset.cfg.bufCap ∧
    inspectFrame State.reset.cfg.priceLimit ([0x03] ++ [0xFA]) = .error .short := by decide
theorem witness_OversizedFrameIsLostAlone :
    State.reset.rxState = .collecting ∧ State.reset.buf = [] ∧ (0xFA : Byte) ∉ List.replicate 64 (0x11 : Byte) ∧
    1 ≤ State.reset.cfg.bufCap ∧ State.reset.cfg.bufCap ≤ (List.replicate 64 (0x11 : Byte)).length := by decide

/-- A state that has received a report and holds half a frame. -/
def busy : State :=
  { State.reset with
    buf := [0x53, 0x11]
    snap := [(0x52, { Entry.empty with status := some 4 })]
    result := 0x03
    inputs := [.tick]
    events := [{ addr := 0x52, delta := { Entry.empty with status := some 4 }, snap := { Entry.empty with status := some 4 } }] }

theorem witness_MergeOverwritesOnlyPresentFields :
    inspectFrame none [0x52, 0x11, 0x81, 0x02, 0x00, 0x04, 0xA7, 0xDE, 0x03, 0xFA] =
      .ok (0x52, { Entry.empty with status := some 4 }) := by decide
theorem witness_StepKeepsTheInvariant : busy.Inv ∧ ∃ t, step busy = .next t :=
  ⟨⟨by decide, by decide, by decide, by decide⟩, _, rfl⟩
theorem witness_step_without_reset :
    busy.inputs.head? ≠ some .rst ∧ (snapLookup busy.snap 0x52).status ≠ none ∧ ∃ t, step busy = .next t :=
  ⟨by decide, by decide, _, rfl⟩
theorem witness_FrameOfEveryInstruction :
    kind .tick ≠ .receive ∧ kind .tick ≠ .reset ∧ kind .tick ≠ .command ∧ kind .tick ≠ .read ∧
    kind (.snap 0) ≠ .send := by decide
theorem witness_PackedDecimalRoundTrip :
    1 ≤ 4 ∧ 99999999 < 10 ^ (2 * 4) ∧ bcdDecode [0x99, 0x99] = some 9999 := by decide
theorem witness_EncodedBytesAreDigitPairs : bcdEncode 99 1 = some [0x99] ∧ 10 ^ (2 * 1) ≤ 100 := by decide
theorem witness_PrintedEntryLayout :
    let e : Entry := { Entry.empty with status := some 0xFF, volume := some 99999999, nozzle := some 15 }
    e.volume = some 99999999 ∧ 99999999 ≤ 99999999 ∧ Entry.empty.status = none := by decide

end Sys2Proof.Tests
end

section
/-! The frame builder and the host-command step (42_frame_builder.md): the model's frames, presets and endings in the
words of the rules, the decoder over the numbers of a command word, the outcomes of the algorithm of R142, and the two
statements about a step on a CMD input. -/

namespace Sys2Proof.Machine

open Sys2Proof.Rules

/-! ### Frames and the endings of a host command -/

/-- The builder writes the frame of R76: the CRC low byte first. -/
theorem frameBytes_eq_frame (a : Byte) (p : List Byte) : frameBytes a p = frame a p := by
  simp [frameBytes, closeFrame, frameTrailer, frame, ctrlOut, etx, frameEnd, crcLow_eq, crcHigh_eq]

/-- An error ends a host command with its code and no byte (R148). -/
theorem raiseError_eq_finish (s : State) (e : HostError) : s.raiseError e = finish s e.code [] := by
  simp [State.raiseError, State.respond, finish]

/-- Frames and then OK end a host command with code 0x00 and their bytes in order (R142). -/
theorem complete_txFrames_eq_finish (s : State) (a : Byte) (ps : List (List Byte)) :
    (s.txFrames a ps).complete = finish s 0x00 (ps.map (frame a)).flatten := by
  have hframes : frameBytes a = frame a := funext (frameBytes_eq_frame a)
  rw [State.txFrames_eq, hframes]
  rfl

/-- The address check lets through exactly the addresses that may be sent to (R142, R233). -/
theorem addrRefused_iff_not_sendable (s : State) (a : Byte) : addrRefused s.cfg a = true ↔ ¬sendable s a := by
  rw [addrRefused_iff, sendable, Classical.not_imp, not_and_or, Nat.not_le, Nat.not_le]

/-- The host-command step at a refused address, whatever its payloads. -/
theorem hostCommand_of_not_sendable {s : State} {a : Byte} (ha : ¬sendable s a)
    (p : Except HostError (List (List Byte))) : s.hostCommand a p = finish s 0x03 [] := by
  have hc : addrRefused s.cfg a = true := (addrRefused_iff_not_sendable s a).mpr ha
  simp only [State.hostCommand, hc, if_true, raiseError_eq_finish]
  rfl

/-- The host-command step past the address check, with payloads to send. -/
theorem hostCommand_of_payloads {s : State} {a : Byte} (ha : sendable s a) (ps : List (List Byte)) :
    s.hostCommand a (.ok ps) = finish s 0x00 (ps.map (frame a)).flatten := by
  have hc : ¬addrRefused s.cfg a = true := fun hc => (addrRefused_iff_not_sendable s a).mp hc ha
  simp only [State.hostCommand, hc, complete_txFrames_eq_finish]
  rfl

/-- The host-command step past the address check, with operands that raise an error. -/
theorem hostCommand_of_error {s : State} {a : Byte} (ha : sendable s a) (e : HostError) :
    s.hostCommand a (.error e) = finish s e.code [] := by
  have hc : ¬addrRefused s.cfg a = true := fun hc => (addrRefused_iff_not_sendable s a).mp hc ha
  simp only [State.hostCommand, hc, raiseError_eq_finish]
  rfl

/-! ### Presets (R54, R121, R144) -/

/-- The encoder's byte of a digit pair is the pair of R54. -/
theorem bcdByte_eq_pair (p : Nat) : bcdByte (p % 100) = pair p := by
  have htens : p % 100 / 10 = p / 10 % 10 := by omega
  have hunits : p % 100 % 10 = p % 10 := by omega
  apply BitVec.eq_of_toNat_eq
  rw [bcdByte_toNat (Nat.mod_lt _ (by decide)), pair, BitVec.toNat_ofNat, htens, hunits]
  omega

/-- A preset that fits is packed as R54 writes it. -/
theorem payloadPreset_of_le (tc : Byte) {v : Nat} (h : v ≤ 99999999) :
    payloadPreset tc v = .ok ([tc, 0x04] ++ bcd4 v) := by
  simp [payloadPreset, presetWidth, bcdEncode_four h, bcd4, bcdByte_eq_pair]

/-- A preset is present and above 99,999,999 (R234). -/
def presetOverflows (p : Option Word32) : Prop := ∃ w, p = some w ∧ 99999999 < w.toNat

/-- An operand word overflows exactly when its flag is set and it is too large. -/
theorem presetOverflows_ite (c : Prop) [Decidable c] (w : Word32) :
    presetOverflows (if c then some w else none) ↔ c ∧ 99999999 < w.toNat := by
  by_cases h : c <;> simp [presetOverflows, h]

theorem presetPayloads_of_fits (tc : Byte) {p : Option Word32} (h : ¬presetOverflows p) :
    presetPayloads tc p = .ok (preset tc p) := by
  cases p with
  | none => rfl
  | some w =>
    have hw : w.toNat ≤ 99999999 := Nat.le_of_not_lt fun hlt => h ⟨w, rfl, hlt⟩
    simp [presetPayloads, payloadPreset_of_le tc hw, preset]

theorem presetPayloads_of_overflows (tc : Byte) {p : Option Word32} (h : presetOverflows p) :
    presetPayloads tc p = .error .overflow := by
  obtain ⟨w, rfl, hw⟩ := h
  rcases payloadPreset_cases tc w.toNat with ⟨hle, -⟩ | ⟨-, he⟩
  · omega
  · simp [presetPayloads, he]

/-- The payloads of AUTHORIZE when both presets fit, in the order of R144. -/
theorem authorizePayloads_of_fits (n : Byte) {v m : Option Word32} (hv : ¬presetOverflows v)
    (hm : ¬presetOverflows m) :
    authorizePayloads n v m = .ok ([[0x02, 0x01, n]] ++ preset 0x03 v ++ preset 0x04 m ++ [[0x01, 0x01, 0x06]]) := by
  rw [authorizePayloads, presetPayloads_of_fits _ hv, presetPayloads_of_fits _ hm]
  rfl

/-- One preset that overflows, the volume or the amount, is the error of AUTHORIZE (R234). -/
theorem authorizePayloads_of_overflows (n : Byte) {v m : Option Word32}
    (h : presetOverflows v ∨ presetOverflows m) : authorizePayloads n v m = .error .overflow := by
  by_cases hv : presetOverflows v
  · rw [authorizePayloads, presetPayloads_of_overflows _ hv]
  · rw [authorizePayloads, presetPayloads_of_fits _ hv, presetPayloads_of_overflows _ (h.resolve_left hv)]

/-! ### A command word over its numbers (R71 to R74) -/

theorem cmdOp_eq_iff (c : Word32) (b : Byte) : cmdOp c = b ↔ c.toNat % 256 = b.toNat := by
  rw [byte_eq_iff, cmdOp_toNat]

theorem cmdAddr_eq_ofNat (c : Word32) : cmdAddr c = BitVec.ofNat 8 (c.toNat / 2 ^ 8) :=
  BitVec.eq_of_toNat_eq (by rw [cmdAddr_toNat, BitVec.toNat_ofNat])

theorem cmdNozzle_eq_ofNat (c : Word32) : cmdNozzle c = BitVec.ofNat 8 (c.toNat / 2 ^ 16) :=
  BitVec.eq_of_toNat_eq (by rw [cmdNozzle_toNat, BitVec.toNat_ofNat])

/-- `OPA` as the volume preset of a command word (R73). -/
def cmdVolume (cmd opa : Word32) : Option Word32 := if cmd.toNat / 2 ^ 24 % 2 = 1 then some opa else none

/-- `OPB` as the amount preset of a command word (R73). -/
def cmdAmount (cmd opb : Word32) : Option Word32 := if cmd.toNat / 2 ^ 25 % 2 = 1 then some opb else none

/-- No reserved bit is set and the opcode is assigned (R72, R74). -/
structure LegalWord (cmd : Word32) : Prop where
  reserved : cmd.toNat / 2 ^ 26 = 0
  opcode : cmd.toNat % 256 = 1 ∨ cmd.toNat % 256 = 2 ∨ cmd.toNat % 256 = 3 ∨ cmd.toNat % 256 = 4

theorem not_legalWord_iff (cmd : Word32) : ¬LegalWord cmd ↔ cmd.toNat / 2 ^ 26 ≠ 0 ∨
    ¬(cmd.toNat % 256 = 1 ∨ cmd.toNat % 256 = 2 ∨ cmd.toNat % 256 = 3 ∨ cmd.toNat % 256 = 4) := by
  rw [← not_and_or]
  exact not_congr ⟨fun h => ⟨h.reserved, h.opcode⟩, fun h => ⟨h.1, h.2⟩⟩

theorem decodeCommand_of_not_legal {cmd : Word32} (h : ¬LegalWord cmd) (opa opb : Word32) :
    ∃ e, decodeCommand cmd opa opb = .error e := by
  by_cases hr : cmdReserved cmd = 0
  · have hop := ((not_legalWord_iff cmd).mp h).resolve_left (not_not_intro ((cmdReserved_eq_zero cmd).mp hr))
    simp only [not_or] at hop
    exact ⟨.unassignedOpcode, by simp [decodeCommand, cmdOp_eq_iff, hr, hop]⟩
  · exact ⟨.reservedBits, by rw [decodeCommand, if_pos hr]⟩

section Legal

variable {cmd : Word32} (hl : LegalWord cmd) (opa opb : Word32)
include hl

theorem decodeCommand_requestStatus (hop : cmd.toNat % 256 = 1) :
    decodeCommand cmd opa opb = .ok (.requestStatus (cmdAddr cmd)) := by
  have hr := (cmdReserved_eq_zero cmd).mpr hl.reserved
  simp [decodeCommand, cmdOp_eq_iff, hr, hop]

theorem decodeCommand_authorize (hop : cmd.toNat % 256 = 2) :
    decodeCommand cmd opa opb =
      .ok (.authorize (cmdAddr cmd) (cmdNozzle cmd) (cmdVolume cmd opa) (cmdAmount cmd opb)) := by
  have hr := (cmdReserved_eq_zero cmd).mpr hl.reserved
  simp [decodeCommand, cmdOp_eq_iff, cmdHasVol_eq, cmdHasAmt_eq, cmdVolume, cmdAmount, hr, hop]

theorem decodeCommand_stop (hop : cmd.toNat % 256 = 3) :
    decodeCommand cmd opa opb = .ok (.stop (cmdAddr cmd)) := by
  have hr := (cmdReserved_eq_zero cmd).mpr hl.reserved
  simp [decodeCommand, cmdOp_eq_iff, hr, hop]

theorem decodeCommand_pumpReset (hop : cmd.toNat % 256 = 4) :
    decodeCommand cmd opa opb = .ok (.pumpReset (cmdAddr cmd)) := by
  have hr := (cmdReserved_eq_zero cmd).mpr hl.reserved
  simp [decodeCommand, cmdOp_eq_iff, hr, hop]

end Legal

/-! ### One step on an input (R58, R65) -/

/-- A step on an input that decodes runs the instruction on the state with that input consumed. -/
theorem step_of_decodes {s : State} {x : Input} {rest : List Input} {i : Instr} (hb : 17 ≤ s.cfg.bufCap)
    (hx : s.inputs = x :: rest) (hi : decodeInput x = .ok i) : step s = exec i { s with inputs := rest } := by
  simp only [step, Nat.not_lt.mpr hb, if_false, fetchInput, hx, hi]

/-- A step on an input that decodes to nothing ends with ERR_ILLEGAL. -/
theorem step_of_decode_error {s : State} {x : Input} {rest : List Input} {e : DecodeError} (hb : 17 ≤ s.cfg.bufCap)
    (hx : s.inputs = x :: rest) (he : decodeInput x = .error e) :
    step s = .next (finish { s with inputs := rest } 0x01 []) := by
  simp only [step, Nat.not_lt.mpr hb, if_false, fetchInput, hx, he, execIllegal, raiseError_eq_finish]
  rfl

/-! ### The outcomes of the algorithm of R142, check by check -/

/-- The bytes a legal command word stands for, once every check has passed (R143 to R146). -/
def commandFrames (cmd opa opb : Word32) : List Byte :=
  if cmd.toNat % 256 = 1 then frame (cmdAddr cmd) [0x01, 0x01, 0x00]
  else if cmd.toNat % 256 = 2 then
    authorizeFrames (cmdAddr cmd) (cmdNozzle cmd) (cmdVolume cmd opa) (cmdAmount cmd opb)
  else if cmd.toNat % 256 = 3 then frame (cmdAddr cmd) [0x01, 0x01, 0x08]
  else frame (cmdAddr cmd) [0x01, 0x01, 0x05]

/-- The operand check of AUTHORIZE fails (R142, R234). -/
def operandsOverflow (cmd opa opb : Word32) : Prop :=
  cmd.toNat % 256 = 2 ∧ (presetOverflows (cmdVolume cmd opa) ∨ presetOverflows (cmdAmount cmd opb))

theorem operandsOverflow_iff (cmd opa opb : Word32) : operandsOverflow cmd opa opb ↔
    (cmd.toNat % 256 = 2 ∧ cmd.toNat / 2 ^ 24 % 2 = 1 ∧ 99999999 < opa.toNat) ∨
    (cmd.toNat % 256 = 2 ∧ cmd.toNat / 2 ^ 25 % 2 = 1 ∧ 99999999 < opb.toNat) := by
  rw [operandsOverflow, cmdVolume, cmdAmount, presetOverflows_ite, presetOverflows_ite, and_or_left]

theorem not_sendable_cmdAddr_iff (s : State) (cmd : Word32) : ¬sendable s (cmdAddr cmd) ↔
    s.cfg.checkAddr = true ∧ (cmd.toNat / 2 ^ 8 % 256 < 0x50 ∨ 0x6F < cmd.toNat / 2 ^ 8 % 256) := by
  rw [← addrRefused_iff_not_sendable, addrRefused_iff, cmdAddr_toNat]

/-- First check: reserved bits and opcode (R232). -/
theorem algorithm_illegal (s : State) {cmd : Word32} (hl : ¬LegalWord cmd) (opa opb : Word32) :
    hostCommand s cmd opa opb = finish s 0x01 [] := if_pos ((not_legalWord_iff cmd).mp hl)

section Legal

variable {s : State} {cmd : Word32} (hl : LegalWord cmd) {opa opb : Word32}
include hl

/-- Second check: the address (R233). -/
theorem algorithm_refused (ha : ¬sendable s (cmdAddr cmd)) : hostCommand s cmd opa opb = finish s 0x03 [] :=
  (if_neg (mt (not_legalWord_iff cmd).mpr (not_not_intro hl))).trans (if_pos ((not_sendable_cmdAddr_iff s cmd).mp ha))

/-- What is left of the pseudocode after the first two checks, its frames under their name. -/
theorem algorithm_past_address (ha : sendable s (cmdAddr cmd)) : hostCommand s cmd opa opb =
    if cmd.toNat % 256 = 2 ∧ cmd.toNat / 2 ^ 24 % 2 = 1 ∧ 99999999 < opa.toNat then finish s 0x02 []
    else if cmd.toNat % 256 = 2 ∧ cmd.toNat / 2 ^ 25 % 2 = 1 ∧ 99999999 < opb.toNat then finish s 0x02 []
    else finish s 0x00 (commandFrames cmd opa opb) := by
  have haddr : BitVec.ofNat 8 (cmd.toNat / 2 ^ 8 % 256) = cmdAddr cmd :=
    BitVec.eq_of_toNat_eq (by rw [cmdAddr_toNat, BitVec.toNat_ofNat, Nat.mod_mod])
  rw [hostCommand]
  rw [if_neg (mt (not_legalWord_iff cmd).mpr (not_not_intro hl)),
    if_neg (mt (not_sendable_cmdAddr_iff s cmd).mpr (not_not_intro ha)), haddr, ← cmdNozzle_eq_ofNat,
    commandFrames, cmdVolume, cmdAmount]
  simp only [apply_ite (finish s 0x00)]

/-- Third check: the operands of AUTHORIZE (R234). -/
theorem algorithm_overflow (ha : sendable s (cmdAddr cmd)) (ho : operandsOverflow cmd opa opb) :
    hostCommand s cmd opa opb = finish s 0x02 [] := by
  rw [algorithm_past_address hl ha]
  rcases (operandsOverflow_iff cmd opa opb).mp ho with h | h
  · rw [if_pos h]
  · rw [if_pos h, ite_self]

/-- Every check passes, and only then are frames written. -/
theorem algorithm_sends (ha : sendable s (cmdAddr cmd)) (ho : ¬operandsOverflow cmd opa opb) :
    hostCommand s cmd opa opb = finish s 0x00 (commandFrames cmd opa opb) := by
  rw [operandsOverflow_iff, not_or] at ho
  obtain ⟨hv, hm⟩ := ho
  rw [algorithm_past_address hl ha, if_neg hv, if_neg hm]

end Legal

/-- The algorithm ends with an error code and no byte, or with OK and every frame of its command (R148). -/
theorem algorithm_cases (s : State) (cmd opa opb : Word32) :
    (∃ code : Byte, code ≠ 0x00 ∧ hostCommand s cmd opa opb = finish s code []) ∨
    hostCommand s cmd opa opb = finish s 0x00 (commandFrames cmd opa opb) := by
  by_cases hl : LegalWord cmd
  · by_cases ha : sendable s (cmdAddr cmd)
    · by_cases ho : operandsOverflow cmd opa opb
      · exact .inl ⟨0x02, by decide, algorithm_overflow hl ha ho⟩
      · exact .inr (algorithm_sends hl ha ho)
    · exact .inl ⟨0x03, by decide, algorithm_refused hl ha⟩
  · exact .inl ⟨0x01, by decide, algorithm_illegal s hl opa opb⟩

theorem commandFrames_authorize {cmd : Word32} (hop : cmd.toNat % 256 = 2) (opa opb : Word32) :
    commandFrames cmd opa opb =
      authorizeFrames (cmdAddr cmd) (cmdNozzle cmd) (cmdVolume cmd opa) (cmdAmount cmd opb) := by
  simp [commandFrames, hop]

/-! ### The model's host-command step is the algorithm -/

section Legal

variable (s : State) {cmd : Word32} (hl : LegalWord cmd) (opa opb : Word32)
include hl

/-- A command that sends one frame. -/
theorem algorithm_eq_hostCommand_single {p : List Byte} (hop : cmd.toNat % 256 ≠ 2)
    (hp : commandFrames cmd opa opb = frame (cmdAddr cmd) p) :
    hostCommand s cmd opa opb = s.hostCommand (cmdAddr cmd) (.ok [p]) := by
  by_cases ha : sendable s (cmdAddr cmd)
  · rw [algorithm_sends hl ha fun ho => hop ho.1, hostCommand_of_payloads ha, hp]
    simp
  · rw [algorithm_refused hl ha, hostCommand_of_not_sendable ha]

/-- AUTHORIZE: the model makes the operand checks by building the payloads. -/
theorem algorithm_eq_hostCommand_authorize (hop : cmd.toNat % 256 = 2) :
    hostCommand s cmd opa opb = s.hostCommand (cmdAddr cmd)
      (authorizePayloads (cmdNozzle cmd) (cmdVolume cmd opa) (cmdAmount cmd opb)) := by
  by_cases ha : sendable s (cmdAddr cmd)
  · by_cases ho : presetOverflows (cmdVolume cmd opa) ∨ presetOverflows (cmdAmount cmd opb)
    · rw [algorithm_overflow hl ha ⟨hop, ho⟩, authorizePayloads_of_overflows _ ho, hostCommand_of_error ha]
      rfl
    · obtain ⟨hv, hm⟩ := not_or.mp ho
      rw [algorithm_sends hl ha fun h => ho h.2, authorizePayloads_of_fits _ hv hm, hostCommand_of_payloads ha,
        commandFrames_authorize hop]
      rfl
  · rw [algorithm_refused hl ha, hostCommand_of_not_sendable ha]

end Legal

/-- What a legal command word decodes to has the meaning of the algorithm. -/
theorem exec_of_legalWord (s : State) {cmd : Word32} (hl : LegalWord cmd) (opa opb : Word32) :
    ∃ i, decodeCommand cmd opa opb = .ok i ∧ exec i s = .next (hostCommand s cmd opa opb) := by
  rcases hl.opcode with hop | hop | hop | hop
  · refine ⟨_, decodeCommand_requestStatus hl opa opb hop, ?_⟩
    rw [algorithm_eq_hostCommand_single s hl opa opb (p := payloadStatus) (by omega)
      (by simp [commandFrames, hop, payloadStatus])]
    rfl
  · refine ⟨_, decodeCommand_authorize hl opa opb hop, ?_⟩
    rw [algorithm_eq_hostCommand_authorize s hl opa opb hop]
    rfl
  · refine ⟨_, decodeCommand_stop hl opa opb hop, ?_⟩
    rw [algorithm_eq_hostCommand_single s hl opa opb (p := payloadStop) (by omega)
      (by simp [commandFrames, hop, payloadStop])]
    rfl
  · refine ⟨_, decodeCommand_pumpReset hl opa opb hop, ?_⟩
    rw [algorithm_eq_hostCommand_single s hl opa opb (p := payloadReset) (by omega)
      (by simp [commandFrames, hop, payloadReset])]
    rfl

/-- Settles O9: an illegal word ends with ERR_ILLEGAL before any instruction runs; every other runs an instruction whose
meaning is the branch of its opcode. -/
theorem commandStepFollowsTheHostCommandAlgorithm : Obligations.CommandStepFollowsTheHostCommandAlgorithm := by
  intro s cmd opa opb rest hb hx
  by_cases hl : LegalWord cmd
  · obtain ⟨i, hi, hexec⟩ := exec_of_legalWord { s with inputs := rest } hl opa opb
    rw [step_of_decodes hb hx hi, hexec]
  · obtain ⟨e, he⟩ := decodeCommand_of_not_legal hl opa opb
    rw [step_of_decode_error hb hx he, algorithm_illegal _ hl]

/-- Settles O10, from O9: the algorithm either writes an error code and no byte, or OK and every frame. -/
theorem failedCommandWritesNoFrame : Obligations.FailedCommandWritesNoFrame := by
  intro s cmd opa opb rest hb hx
  refine ⟨_, commandStepFollowsTheHostCommandAlgorithm s cmd opa opb rest hb hx, ?_⟩
  rcases algorithm_cases { s with inputs := rest } cmd opa opb with ⟨code, -, h⟩ | h <;> rw [h]
  · have htx : (finish { s with inputs := rest } code []).tx = s.tx := List.append_nil _
    exact ⟨fun _ => by simp [finish], fun _ => .inl htx⟩
  · refine ⟨fun hne => absurd rfl hne, fun hop => .inr ?_⟩
    rw [commandFrames_authorize hop, cmdAddr_eq_ofNat, cmdNozzle_eq_ofNat]
    rfl

end Sys2Proof.Machine
end

section
/-! The frame parser (43_frame_parser.md): a body that is dropped drops its candidate, which bodies are of no recognised
form, what a merge does to an entry, and the two statements about them. -/

namespace Sys2Proof.Machine

/-! ### Dropped bodies (R174, R175) -/

/-- Where the form supplies no delta, the body is dropped for the same reason. -/
theorem inspectBody_of_formDelta_error {limit : Option Nat} {tc l : Byte} {data : List Byte} {why : DropReason}
    (a c : Byte) (h : formDelta limit (classify tc l data) data = .error why) :
    inspectBody limit (a :: c :: tc :: l :: data) = .error why := by
  rw [inspectBody, h]

/-- A body that is dropped changes nothing under any trailer: if the CRC does not stop the candidate, the body does. -/
theorem State.decodeFrame_of_inspectBody_error {s : State} {body trailer : List Byte} {why : DropReason}
    (ht : trailer.length = 4) (h : inspectBody s.cfg.priceLimit body = .error why) :
    s.decodeFrame (body ++ trailer) = s := by
  rcases s.decodeFrame_cases (body ++ trailer) with ⟨-, -, hs⟩ | ⟨a, d, hok, -⟩
  · exact hs
  · rcases inspectFrame_cases s.cfg.priceLimit (body ++ trailer) with
      ⟨-, he⟩ | ⟨body', lo, hi, e, x, hf, -, ⟨-, he⟩ | ⟨-, he⟩⟩
    · cases he.symm.trans hok
    · cases he.symm.trans hok
    · obtain ⟨rfl, -⟩ := List.append_inj' hf ht
      cases (he.symm.trans hok).symm.trans h

/-- Past the length check and the CRC check, the body decides (R176, R178). -/
theorem inspectFrame_of_crc {body : List Byte} {lo hi : Byte} (hl : 3 ≤ body.length)
    (hcrc : crc16 body = trailerValue lo hi) (limit : Option Nat) (e f : Byte) :
    inspectFrame limit (body ++ [lo, hi, e, f]) = inspectBody limit body := by
  rw [inspectFrame_append, if_neg (Nat.not_lt.mpr hl), if_pos (by rw [hcrc, trailerValue_toNat])]

/-! ### Bodies of no recognised form (R182, R184) -/

theorem classify_eq_ignored {tc : Byte} (h81 : tc ≠ 0x81) (h83 : tc ≠ 0x83) (l : Byte) (data : List Byte) :
    classify tc l data = .ignored := by
  rw [classify, if_neg h81, if_neg h83]

theorem classify_eq_dc1Other {l d0 : Byte} (hstatus : ¬(d0 = 0x00 ∧ 2 ≤ l.toNat))
    (hvolamt : ¬(d0 = 0x04 ∧ 8 ≤ l.toNat)) (data : List Byte) : classify 0x81 l (d0 :: data) = .dc1Other := by
  have hs : ¬(some d0 = some 0x00 ∧ 2 ≤ l) := by rwa [Option.some_inj]
  have hv : ¬(some d0 = some 0x04 ∧ 8 ≤ l) := by rwa [Option.some_inj]
  rw [classify, if_pos rfl, List.head?_cons, if_neg hs, if_neg hv]

/-- A body of a TRANS code that is no report is ignored, whatever its data (R184). -/
theorem inspectBody_of_other_trans {tc : Byte} (h81 : tc ≠ 0x81) (h83 : tc ≠ 0x83) (limit : Option Nat)
    (a c l : Byte) (data : List Byte) : inspectBody limit (a :: c :: tc :: l :: data) = .error .ignored :=
  inspectBody_of_formDelta_error a c (by rw [classify_eq_ignored h81 h83]; rfl)

/-- A 0x81 body that meets the test of neither form is ignored (R182). -/
theorem inspectBody_of_dc1_other {l d0 : Byte} (hstatus : ¬(d0 = 0x00 ∧ 2 ≤ l.toNat))
    (hvolamt : ¬(d0 = 0x04 ∧ 8 ≤ l.toNat)) (limit : Option Nat) (a c : Byte) (data : List Byte) :
    inspectBody limit (a :: c :: 0x81 :: l :: d0 :: data) = .error .ignored :=
  inspectBody_of_formDelta_error a c (by rw [classify_eq_dc1Other hstatus hvolamt]; rfl)

/-- The three ways of R182 to meet the test of neither form. -/
theorem meets_neither_dc1_test {l d0 : Byte}
    (h : (d0 ≠ 0x00 ∧ d0 ≠ 0x04) ∨ (d0 = 0x00 ∧ l.toNat < 2) ∨ (d0 = 0x04 ∧ l.toNat < 8)) :
    ¬(d0 = 0x00 ∧ 2 ≤ l.toNat) ∧ ¬(d0 = 0x04 ∧ 8 ≤ l.toNat) := by
  rcases h with ⟨h0, h4⟩ | ⟨rfl, hl⟩ | ⟨rfl, hl⟩
  · exact ⟨fun hs => h0 hs.1, fun hv => h4 hv.1⟩
  · exact ⟨fun hs => by omega, fun hv => absurd hv.1 (by decide)⟩
  · exact ⟨fun hs => absurd hs.1 (by decide), fun hv => by omega⟩

/-- The CRC of R182's example is the one it carries. -/
theorem crc16_dc1_other_example : crc16 [0x52, 0x11, 0x81, 0x02, 0x01, 0x04] = trailerValue 0x96 0xED := by
  simp [crc16, crcStep, crcBits, crcBit, trailerValue]

/-- The CRC of R184's example, the block's own poll frame, is the one it carries. -/
theorem crc16_poll_example : crc16 [0x50, 0x11, 0x01, 0x01, 0x00] = trailerValue 0x2C 0x6D := by
  simp [crc16, crcStep, crcBits, crcBit, trailerValue]

/-- Settles O34: the body is dropped as ignored, by its TRANS code or by the tests of its 0x81 form;
each example passes its CRC check first. -/
theorem unrecognisedFramesAreIgnored : Obligations.UnrecognisedFramesAreIgnored := by
  refine ⟨fun s a c tc l d0 data trailer ht hform => ?_, fun s a c tc l trailer ht htc => ?_, ?_, ?_⟩
  · rcases hform with ⟨h81, h83⟩ | ⟨rfl, hdata⟩
    · exact State.decodeFrame_of_inspectBody_error ht (inspectBody_of_other_trans h81 h83 _ a c l (d0 :: data))
    · obtain ⟨hstatus, hvolamt⟩ := meets_neither_dc1_test hdata
      exact State.decodeFrame_of_inspectBody_error ht (inspectBody_of_dc1_other hstatus hvolamt _ a c data)
  · exact State.decodeFrame_of_inspectBody_error ht (inspectBody_of_other_trans htc.1 htc.2 _ a c l [])
  · exact (inspectFrame_of_crc (by decide) crc16_dc1_other_example none _ _).trans
      (inspectBody_of_dc1_other (by decide) (by decide) none _ _ _)
  · exact (inspectFrame_of_crc (by decide) crc16_poll_example none _ _).trans
      (inspectBody_of_other_trans (by decide) (by decide) none _ _ _ _)

/-! ### The merge of one entry (R185) -/

/-- The merge in the words of R185: the delta's field where it is present, else the old one. -/
theorem Entry.merge_eq (e d : Entry) :
    e.merge d =
      { status := if d.status = none then e.status else d.status
        volume := if d.volume = none then e.volume else d.volume
        amount := if d.amount = none then e.amount else d.amount
        nozzle := if d.nozzle = none then e.nozzle else d.nozzle
        inUse := if d.inUse = none then e.inUse else d.inUse
        price := if d.price = none then e.price else d.price } := by
  have hfield {α : Type} (new old : Option α) : new.or old = if new = none then old else new := by
    cases new <;> rfl
  simp only [Entry.merge, hfield]

/-- A merge keeps every field of the delta, so it is empty only if the delta is. -/
theorem Entry.merge_ne_empty {d : Entry} (hd : d ≠ Entry.empty) (e : Entry) : e.merge d ≠ Entry.empty := by
  intro h
  obtain ⟨status, volume, amount, nozzle, inUse, price⟩ := d
  simp only [Entry.merge, Entry.empty, Entry.mk.injEq, Option.or_eq_none_iff] at h
  obtain ⟨⟨rfl, -⟩, ⟨rfl, -⟩, ⟨rfl, -⟩, ⟨rfl, -⟩, ⟨rfl, -⟩, rfl, -⟩ := h
  exact hd rfl

/-- Each form that supplies a delta makes a field present. -/
theorem formDelta_ne_empty {limit : Option Nat} {w : WireForm} {data : List Byte} {d : Entry}
    (h : formDelta limit w data = .ok d) : d ≠ Entry.empty := by
  rcases formDelta_ok h with ⟨b, -, -, rfl⟩ | ⟨v, m, -, -, -, -, rfl⟩ | ⟨d0, ns, b, more, p, -, -, -, -, rfl⟩ <;>
    simp [Entry.empty]

/-- A candidate that reports has a delta that is not empty (R174). -/
theorem inspectFrame_delta_ne_empty {limit : Option Nat} {f : List Byte} {a : Byte} {d : Entry}
    (h : inspectFrame limit f = .ok (a, d)) : d ≠ Entry.empty := by
  obtain ⟨tc, l, data, hd⟩ := inspectFrame_ok h
  exact formDelta_ne_empty hd

/-- Settles O38: the read after a merge is the merged entry at its address, field by field, and the old entry elsewhere;
a decoded delta makes a field present and the merge keeps it. -/
theorem mergeOverwritesOnlyPresentFields : Obligations.MergeOverwritesOnlyPresentFields := by
  refine ⟨fun t a x d => ?_, fun limit f t a d h => ?_⟩
  · rw [snapLookup_merge, Entry.merge_eq]
  · have hd := inspectFrame_delta_ne_empty h
    refine ⟨hd, ?_⟩
    rw [snapLookup_merge, if_pos rfl]
    exact Entry.merge_ne_empty hd _

end Sys2Proof.Machine
end

section
/-! The poll sweep (44_scheduler_state.md): what a run of frames to several addresses appends to TX, the length of a frame
and its bytes once its CRC is known, and the statement about TICK. -/

namespace Sys2Proof.Machine

open Sys2Proof.Rules

/-! ### One payload to several addresses -/

/-- Writing one payload to several addresses appends the frames in their order and changes nothing else (R61). -/
theorem foldl_txFrame_eq (s : State) (addrs : List Byte) (p : List Byte) :
    addrs.foldl (fun s a => s.txFrame a p) s = { s with tx := s.tx ++ (addrs.map fun a => frame a p).flatten } := by
  induction addrs generalizing s with
  | nil => simp
  | cons a addrs ih =>
    rw [List.foldl_cons, ih]
    simp [State.txFrame, frameBytes_eq_frame, List.append_assoc]

/-- The sweep's addresses count up from 0x50 as numbers. -/
theorem pollAddresses_eq_ofNat : pollAddresses = (List.range 32).map fun i => BitVec.ofNat 8 (0x50 + i) := by
  simp only [pollAddresses, BitVec.ofNat_add]
  rfl

/-- TICK appends the frames of its sweep and changes nothing else (R210). -/
theorem exec_tick (s : State) :
    exec .tick s = .next { s with tx := s.tx ++ (pollAddresses.map fun a => frame a payloadStatus).flatten } :=
  congrArg Host.Outcome.next (foldl_txFrame_eq s pollAddresses payloadStatus)

/-! ### The length and the bytes of a frame -/

/-- A frame is its payload and six bytes around it (R76). -/
@[simp] theorem frame_length (a : Byte) (p : List Byte) : (frame a p).length = p.length + 6 := by
  simp [frame]

/-- Frames of one payload are equally long, so their bytes count per address. -/
theorem flatten_frames_length {α : Type} (l : List α) (addr : α → Byte) (p : List Byte) :
    (l.map fun x => frame (addr x) p).flatten.length = l.length * (p.length + 6) := by
  simp [List.length_flatten, Function.comp_def]

/-- Once the CRC of its body is known as a trailer, a frame carries that trailer (R105). -/
theorem frame_eq_of_crc16 {a lo hi : Byte} {p : List Byte} (h : crc16 ([a, 0x11] ++ p) = trailerValue lo hi) :
    frame a p = [a, 0x11] ++ p ++ [lo, hi, 0x03, 0xFA] := by
  have hlt : lo.toNat < 256 := lo.isLt
  have hlo : (256 * hi.toNat + lo.toNat) % 256 = lo.toNat := by omega
  have hhi : (256 * hi.toNat + lo.toNat) / 256 = hi.toNat := by omega
  rw [frame, h, trailerValue_toNat, hlo, hhi, BitVec.ofNat_toNat, BitVec.ofNat_toNat, BitVec.setWidth_eq,
    BitVec.setWidth_eq]

/-! ### TICK (R210) -/

/-- The CRC of the sweep's second frame; that of the first is `crc16_poll_example`. -/
theorem crc16_poll_second : crc16 [0x51, 0x11, 0x01, 0x01, 0x00] = trailerValue 0x7D 0xC7 := by
  simp [crc16, crcStep, crcBits, crcBit, trailerValue]

/-- The CRC of the sweep's last frame. -/
theorem crc16_poll_last : crc16 [0x6F, 0x11, 0x01, 0x01, 0x00] = trailerValue 0x3B 0x04 := by
  simp [crc16, crcStep, crcBits, crcBit, trailerValue]

/-- Settles O19: the sweep appends a frame per address, each of nine bytes; the three frames written out carry the CRC of
their body. -/
theorem tickSweepsEveryPumpAddress : Obligations.TickSweepsEveryPumpAddress := by
  refine ⟨fun s => ?_, ?_, ?_, ?_, ?_⟩
  · rw [exec_tick, pollAddresses_eq_ofNat, List.map_map]
    rfl
  · rw [flatten_frames_length, List.length_range]
    rfl
  · exact frame_eq_of_crc16 crc16_poll_example
  · exact frame_eq_of_crc16 crc16_poll_second
  · exact frame_eq_of_crc16 crc16_poll_last

end Sys2Proof.Machine
end

section
/-! The errors of a host command (60_exceptions.md): an illegal command word, an oversized preset and a refused address
each write `RESULT` and the response only, and past the address check ERR_ADDR is never raised. -/

namespace Sys2Proof.Machine

open Sys2Proof.Rules

/-- Ending a host command without a byte writes only `RESULT` and the response (R148). -/
theorem finish_nil (s : State) (code : Byte) :
    finish s code [] = { s with result := code, responses := s.responses ++ [.result code] } := by
  simp [finish]

@[simp] theorem finish_result (s : State) (code : Byte) (bytes : List Byte) : (finish s code bytes).result = code := rfl

/-! ### ERR_ILLEGAL (R232) -/

/-- A word with a reserved bit, opcode 0 or an opcode from 5 is not legal. -/
theorem not_legalWord_of_unassigned {cmd : Word32}
    (h : cmd.toNat / 2 ^ 26 ≠ 0 ∨ cmd.toNat % 256 = 0 ∨ 5 ≤ cmd.toNat % 256) : ¬LegalWord cmd := by
  rcases h with hreserved | hop
  · exact fun hl => hreserved hl.reserved
  · intro hl
    have hassigned := hl.opcode
    omega

/-- Settles O8, from O9: the first check of the algorithm ends the command. -/
theorem illegalCommandWordWritesOnlyResult : Obligations.IllegalCommandWordWritesOnlyResult := by
  intro s cmd opa opb rest hb hx hbad
  rw [commandStepFollowsTheHostCommandAlgorithm s cmd opa opb rest hb hx,
    algorithm_illegal _ (not_legalWord_of_unassigned hbad), finish_nil]

/-! ### ERR_OVERFLOW (R234) -/

/-- AUTHORIZE is the host-command step over its payloads (R144). -/
theorem exec_authorize (s : State) (a n : Byte) (v m : Option Word32) :
    exec (.authorize a n v m) s = .next (s.hostCommand a (authorizePayloads n v m)) := rfl

/-- Settles O13: past the address check, the payloads of AUTHORIZE are the error of the preset that overflows. -/
theorem authorizeOverflowWritesOnlyResult : Obligations.AuthorizeOverflowWritesOnlyResult := by
  intro s a n v m ha hover
  rw [exec_authorize, authorizePayloads_of_overflows n hover, hostCommand_of_error ha, finish_nil]
  rfl

/-! ### ERR_ADDR (R233) -/

/-- An address is refused exactly when `CHECK_ADDR` is on and it lies outside 0x50 to 0x6F. -/
theorem not_sendable_iff (s : State) (a : Byte) :
    ¬sendable s a ↔ s.cfg.checkAddr = true ∧ (a.toNat < 0x50 ∨ 0x6F < a.toNat) := by
  rw [← addrRefused_iff_not_sendable, addrRefused_iff]

/-- What a host command may pass to the host-command step: at least one payload, or the error of an oversized preset. -/
def SendsOrOverflows (p : Except HostError (List (List Byte))) : Prop :=
  p = .error .overflow ∨ ∃ ps, ps ≠ [] ∧ p = .ok ps

/-- AUTHORIZE sends its nozzle and authorize frames at least, or nothing (R144, R234). -/
theorem authorizePayloads_sendsOrOverflows (n : Byte) (v m : Option Word32) :
    SendsOrOverflows (authorizePayloads n v m) := by
  by_cases hover : presetOverflows v ∨ presetOverflows m
  · exact .inl (authorizePayloads_of_overflows n hover)
  · obtain ⟨hv, hm⟩ := not_or.mp hover
    exact .inr ⟨_, by simp, authorizePayloads_of_fits n hv hm⟩

/-- Every host command is the host-command step at its address, over payloads of its own (R143 to R146). -/
theorem exec_hostCommand (s : State) {a n : Byte} {v m : Option Word32} {i : Instr}
    (hi : i = .requestStatus a ∨ i = .stop a ∨ i = .pumpReset a ∨ i = .authorize a n v m) :
    ∃ p, SendsOrOverflows p ∧ exec i s = .next (s.hostCommand a p) := by
  rcases hi with rfl | rfl | rfl | rfl
  · exact ⟨.ok [payloadStatus], .inr ⟨_, by simp, rfl⟩, rfl⟩
  · exact ⟨.ok [payloadStop], .inr ⟨_, by simp, rfl⟩, rfl⟩
  · exact ⟨.ok [payloadReset], .inr ⟨_, by simp, rfl⟩, rfl⟩
  · exact ⟨_, authorizePayloads_sendsOrOverflows n v m, exec_authorize s a n v m⟩

/-- Past the address check, a host command ends without ERR_ADDR, its frames all go to its address, and OK follows at
least one. -/
theorem exec_hostCommand_of_sendable {s : State} {a n : Byte} {v m : Option Word32} {i : Instr}
    (hi : i = .requestStatus a ∨ i = .stop a ∨ i = .pumpReset a ∨ i = .authorize a n v m) (ha : sendable s a) :
    ∃ t ps, exec i s = .next t ∧ t.result ≠ 0x03 ∧ t.tx = s.tx ++ (ps.map (frame a)).flatten ∧
      (t.result = 0x00 → ps ≠ []) := by
  obtain ⟨p, rfl | ⟨ps, hne, rfl⟩, hexec⟩ := exec_hostCommand s hi
  · rw [hostCommand_of_error ha] at hexec
    exact ⟨_, [], hexec, by simp [HostError.code], rfl, by simp [HostError.code]⟩
  · rw [hostCommand_of_payloads ha] at hexec
    exact ⟨_, ps, hexec, by simp, rfl, fun _ => hne⟩

/-- Settles O14: a refused address ends the host-command step at its first check; an address in range and `CHECK_ADDR`
off both pass that check. -/
theorem addressCheckRaisesErrAddr : Obligations.AddressCheckRaisesErrAddr := by
  intro s a n v m i hi
  refine ⟨fun hon hout => ?refused, fun _ hlo hhi => ?inRange, fun hoff => ?unchecked⟩
  case refused =>
    obtain ⟨p, -, hexec⟩ := exec_hostCommand s hi
    rw [hexec, hostCommand_of_not_sendable ((not_sendable_iff s a).mpr ⟨hon, hout⟩), finish_nil]
  case inRange => exact exec_hostCommand_of_sendable hi fun _ => ⟨hlo, hhi⟩
  case unchecked => exact exec_hostCommand_of_sendable hi fun hon => absurd hon (by simp [hoff])

end Sys2Proof.Machine
end

section
/-! The block reset (70_reset_and_hazards.md R260): the four pieces of the block's state take their reset values, and the
rest of the state stays. -/

namespace Sys2Proof.Machine

/-- In the empty table every address reads as the entry no update has written (R26). -/
@[simp] theorem snapLookup_nil (a : Byte) : snapLookup [] a = Entry.empty := rfl

/-- RESET answers the state with its receive state, buffer, table and `RESULT` replaced (R260). -/
theorem exec_reset (s : State) :
    exec .reset s = .next { s with rxState := .collecting, buf := [], snap := [], result := 0x00 } := rfl

/-- Settles O21: the state RESET answers has the reset values by its record update, its empty table reads as all none at
every address, and the fields it does not name are those of `s`. -/
theorem blockResetClearsTheBlock : Obligations.BlockResetClearsTheBlock := by
  intro s
  exact ⟨_, exec_reset s, rfl, rfl, snapLookup_nil, rfl, rfl, rfl, rfl⟩

end Sys2Proof.Machine
end

section
/-! The packed-decimal codec (41_bcd_codec.md): the encoder's bytes taken by recursion over the width, decoding and encoding
as inverses, and the three statements about validity, bounds and the round trip. -/

namespace Sys2Proof.Machine

/-! ### The encoder by recursion over its width (R120) -/

/-- The `n` digit pairs of `v`, the most significant first; digits above them are left out. -/
def digitPairs (v : Nat) : Nat → List Byte
  | 0 => []
  | n + 1 => bcdByte (v / 100 ^ n % 100) :: digitPairs v n

@[simp] theorem digitPairs_length (v n : Nat) : (digitPairs v n).length = n := by
  induction n with
  | zero => rfl
  | succ n ih => rw [digitPairs, List.length_cons, ih]

/-- The encoder's list of bytes is the digit pairs of its value. -/
theorem digitPairs_eq_map (v n : Nat) :
    digitPairs v n = (List.range n).map fun i => bcdByte (v / 10 ^ (2 * (n - 1 - i)) % 100) := by
  induction n with
  | zero => rfl
  | succ n ih =>
    rw [digitPairs, ih, List.range_succ_eq_map, List.map_cons, List.map_map]
    congr 1
    · rw [pow_mul]
      rfl
    · refine List.map_congr_left fun i _ => ?_
      have hi : n + 1 - 1 - (i + 1) = n - 1 - i := by omega
      simp only [Function.comp_apply, Nat.succ_eq_add_one, hi]

theorem hundred_pow (n : Nat) : 10 ^ (2 * n) = 100 ^ n := by rw [pow_mul]; rfl

/-- A value that fits encodes to its digit pairs. -/
theorem bcdEncode_eq_digitPairs {v n : Nat} (h : v < 10 ^ (2 * n)) : bcdEncode v n = some (digitPairs v n) := by
  rw [bcdEncode_of_lt h, digitPairs_eq_map]

/-- What the encoder answers is the digit pairs of a value that fits (R121). -/
theorem bcdEncode_eq_some {v n : Nat} {s : List Byte} (h : bcdEncode v n = some s) :
    v < 10 ^ (2 * n) ∧ s = digitPairs v n := by
  by_cases hv : v < 10 ^ (2 * n)
  · rw [bcdEncode_eq_digitPairs hv, Option.some.injEq] at h
    exact ⟨hv, h.symm⟩
  · rw [bcdEncode_of_ge (Nat.le_of_not_lt hv)] at h
    cases h

/-- Each digit pair is one byte of a number below 100. -/
theorem mem_digitPairs {v n : Nat} {b : Byte} (h : b ∈ digitPairs v n) : ∃ p < 100, b = bcdByte p := by
  induction n with
  | zero => cases h
  | succ n ih =>
    rcases List.mem_cons.mp h with rfl | h
    · exact ⟨_, Nat.mod_lt _ (by decide), rfl⟩
    · exact ih h

/-! ### One byte of the decoder (R123, R124) -/

/-- The loop over a byte of two decimal digits goes on with them in its value. -/
theorem bcdDecodeFrom_cons_bcdByte (v : Nat) {p : Nat} (hp : p < 100) (s : List Byte) :
    bcdDecodeFrom v (bcdByte p :: s) = bcdDecodeFrom (v * 100 + p) s := by
  have hhi := digitHi_bcdByte hp
  have hlo := digitLo_bcdByte hp
  rw [bcdDecodeFrom, if_neg (by omega)]
  congr 1
  omega

/-- A loop that answers has read a digit pair first. -/
theorem bcdDecodeFrom_cons_eq_some {v w : Nat} {b : Byte} {s : List Byte} (h : bcdDecodeFrom v (b :: s) = some w) :
    ∃ p < 100, b = bcdByte p ∧ bcdDecodeFrom (v * 100 + p) s = some w := by
  rw [bcdDecodeFrom] at h
  split at h
  · cases h
  · next hd =>
    have hhi : digitHi b ≤ 9 := by omega
    have hlo : digitLo b ≤ 9 := by omega
    refine ⟨digitHi b * 10 + digitLo b, by omega, (bcdByte_digits hhi hlo).symm, ?_⟩
    rw [← Nat.add_assoc]
    exact h

/-- The loop answers nothing exactly when a nibble is above 9, whatever it has read before (R124). -/
theorem bcdDecodeFrom_eq_none_iff (v : Nat) (s : List Byte) :
    bcdDecodeFrom v s = none ↔ ∃ b ∈ s, 9 < b.toNat / 16 ∨ 9 < b.toNat % 16 := by
  induction s generalizing v with
  | nil => simp [bcdDecodeFrom]
  | cons b s ih =>
    rw [bcdDecodeFrom, digitHi_eq, digitLo_eq, List.exists_mem_cons_iff]
    split
    · next hb => simp [hb]
    · next hb => simp [hb, ih]

/-! ### Encoding and decoding as inverses (R126) -/

/-- The loop reads back the digits that the pairs hold. -/
theorem bcdDecodeFrom_digitPairs (w v n : Nat) :
    bcdDecodeFrom w (digitPairs v n) = some (w * 100 ^ n + v % 100 ^ n) := by
  induction n generalizing w with
  | zero => simp [digitPairs, bcdDecodeFrom, Nat.mod_one]
  | succ n ih =>
    rw [digitPairs, bcdDecodeFrom_cons_bcdByte _ (Nat.mod_lt _ (by decide)), ih, Option.some.injEq,
      pow_succ, Nat.mod_mul]
    ring

/-- A sequence that the loop accepts is the digit pairs of what it answers. -/
theorem digitPairs_of_bcdDecodeFrom {w v : Nat} {s : List Byte} (h : bcdDecodeFrom w s = some v) :
    digitPairs v s.length = s := by
  induction s generalizing w with
  | nil => rfl
  | cons b s ih =>
    obtain ⟨p, hp, rfl, hrest⟩ := bcdDecodeFrom_cons_eq_some h
    rw [List.length_cons, digitPairs, ih hrest]
    rw [bcdDecodeFrom_eq, Option.map_eq_some_iff] at hrest
    obtain ⟨u, hu, rfl⟩ := hrest
    have hlt := bcdDecodeFrom_lt hu
    have hdiv : ((w * 100 + p) * 100 ^ s.length + u) / 100 ^ s.length = w * 100 + p := by
      rw [Nat.mul_comm, Nat.mul_add_div (by positivity), Nat.div_eq_of_lt hlt, Nat.add_zero]
    have hpair : (w * 100 + p) % 100 = p := by omega
    rw [hdiv, hpair]

/-- On a sequence that is not empty the decoder is its loop (R125). -/
theorem bcdDecode_of_ne_nil {s : List Byte} (h : s ≠ []) : bcdDecode s = bcdDecodeFrom 0 s := by
  cases s with
  | nil => exact absurd rfl h
  | cons b s => rfl

/-- Decoding what was encoded, at a width of at least one byte. -/
theorem bcdDecode_digitPairs {v n : Nat} (hn : 1 ≤ n) (hv : v < 10 ^ (2 * n)) :
    bcdDecode (digitPairs v n) = some v := by
  have hne : digitPairs v n ≠ [] := by
    rw [← List.length_pos_iff, digitPairs_length]
    exact hn
  rw [hundred_pow] at hv
  rw [bcdDecode_of_ne_nil hne, bcdDecodeFrom_digitPairs, Nat.mod_eq_of_lt hv, Nat.zero_mul, Nat.zero_add]

/-- A sequence of k bytes decodes to less than 10^(2k). -/
theorem bcdDecode_lt {s : List Byte} {v : Nat} (h : bcdDecode s = some v) : v < 10 ^ (2 * s.length) := by
  rw [hundred_pow]
  exact bcdDecodeFrom_lt (bcdDecode_eq_some h).2

/-- Encoding what was decoded, at the width of the sequence. -/
theorem bcdEncode_of_bcdDecode {s : List Byte} {v : Nat} (h : bcdDecode s = some v) :
    bcdEncode v s.length = some s := by
  rw [bcdEncode_eq_digitPairs (bcdDecode_lt h), digitPairs_of_bcdDecodeFrom (bcdDecode_eq_some h).2]

/-- Settles O49: the encoder's bytes are the digit pairs of its value, which the decoder's loop reads back, and every
sequence the loop accepts is of that form; 1234 is written out. -/
theorem packedDecimalRoundTrip : Obligations.PackedDecimalRoundTrip := by
  refine ⟨fun n v hn hv => ?_, fun s v h => bcdEncode_of_bcdDecode h, by decide, by decide⟩
  exact ⟨digitPairs v n, bcdEncode_eq_digitPairs hv, bcdDecode_digitPairs hn hv⟩

/-- Settles O50: an empty sequence is INVALID by itself, any other by the first nibble its loop refuses. -/
theorem packedDecimalValidity : Obligations.PackedDecimalValidity := by
  intro s
  refine ⟨?_, fun v h => bcdDecode_lt h⟩
  by_cases hs : s = []
  · subst hs
    exact iff_of_true rfl (.inl rfl)
  · rw [bcdDecode_of_ne_nil hs, bcdDecodeFrom_eq_none_iff]
    simp [hs]

/-- Settles O51: the encoder answers nothing from 10^(2n) on, and else n digit pairs, each a byte of two decimal
digits. -/
theorem encodedBytesAreDigitPairs : Obligations.EncodedBytesAreDigitPairs := by
  refine fun v n => ⟨⟨fun h => ?_, bcdEncode_of_ge⟩, fun s h => ?_⟩
  · by_contra hlt
    rw [bcdEncode_eq_digitPairs (Nat.lt_of_not_le hlt)] at h
    cases h
  · obtain ⟨-, rfl⟩ := bcdEncode_eq_some h
    refine ⟨digitPairs_length v n, fun b hb => ?_⟩
    obtain ⟨p, hp, rfl⟩ := mem_digitPairs hb
    have hbyte := bcdByte_toNat hp
    refine ⟨by omega, by omega, by omega, fun hFA => ?_⟩
    rw [hFA] at hbyte
    have : (0xFA : Byte).toNat = 250 := rfl
    omega

/-- Four bytes of R54 decode to their value. -/
theorem bcdDecode_bcd4 {v : Nat} (h : v ≤ 99999999) : bcdDecode (Rules.bcd4 v) = some v := by
  have hpairs : digitPairs v 4 = Rules.bcd4 v := by
    simp [digitPairs, Rules.bcd4, bcdByte_eq_pair]
  rw [← hpairs]
  exact bcdDecode_digitPairs (by decide) (by omega)

end Sys2Proof.Machine
end

section
/-! The decoder and the encoder (30_encoding.md): a command word, a payload and a body each decode to the instruction they
were encoded from, every encoded form that decodes is one of these, and the statements about both directions and about the
assembler's lines. -/

namespace Sys2Proof

open Sys2Proof.Machine Sys2Proof.Rules

/-! ### Command words (R71 to R73) -/

theorem decodeCommand_requestStatus_word (a : Byte) (opa opb : Word32) :
    decodeCommand (commandWord 0x01 a 0 false false) opa opb = .ok (.requestStatus a) := by
  simp [decodeCommand]

theorem decodeCommand_stop_word (a : Byte) (opa opb : Word32) :
    decodeCommand (commandWord 0x03 a 0 false false) opa opb = .ok (.stop a) := by
  simp [decodeCommand]

theorem decodeCommand_pumpReset_word (a : Byte) (opa opb : Word32) :
    decodeCommand (commandWord 0x04 a 0 false false) opa opb = .ok (.pumpReset a) := by
  simp [decodeCommand]

/-- The presence bits of an AUTHORIZE word say which operand words count (R73). -/
theorem decodeCommand_authorize_word (a n : Byte) (v m : Option Word32) :
    decodeCommand (commandWord 0x02 a n v.isSome m.isSome) (v.getD 0) (m.getD 0) = .ok (.authorize a n v m) := by
  have operand (p : Option Word32) : (if p.isSome = true then some (p.getD 0#32) else none) = p := by cases p <;> rfl
  simp [decodeCommand, operand]

/-- A command word decodes to a host command only, and these are well formed for every operand. -/
theorem decodeCommand_ok {cmd opa opb : Word32} {i : Instr} (h : decodeCommand cmd opa opb = .ok i) :
    i.WellFormed ∧ kind i = .command := by
  unfold decodeCommand at h
  split at h
  · cases h
  repeat' split at h
  all_goals cases h <;> exact ⟨rfl, rfl⟩

/-! ### Payloads (R78 to R81) -/

/-- A preset that fits packs into the four bytes of R54. -/
theorem presetBytes_eq_bcd4 {v : Nat} (h : v ≤ presetMax) : presetBytes v = bcd4 v := by
  simp [presetBytes, presetWidth, bcdEncode_four h, bcd4, bcdByte_eq_pair]

theorem decodePayload_presetVol (a : Byte) {v : Nat} (h : v ≤ presetMax) :
    decodePayload a ([0x03, 0x04] ++ presetBytes v) = .ok (.cd3PresetVol a v) := by
  have hd : bcdDecode (bcd4 v) = some v := bcdDecode_bcd4 h
  rw [presetBytes_eq_bcd4 h]
  simp only [bcd4] at hd ⊢
  simp [decodePayload, hd]

theorem decodePayload_presetAmt (a : Byte) {m : Nat} (h : m ≤ presetMax) :
    decodePayload a ([0x04, 0x04] ++ presetBytes m) = .ok (.cd4PresetAmt a m) := by
  have hd : bcdDecode (bcd4 m) = some m := bcdDecode_bcd4 h
  rw [presetBytes_eq_bcd4 h]
  simp only [bcd4] at hd ⊢
  simp [decodePayload, hd]

/-- The digits of a preset field are the preset bytes of the value they decode to, and that value fits. -/
theorem presetBytes_of_bcdDecode {d : List Byte} {v : Nat} (hl : d.length = 4) (h : bcdDecode d = some v) :
    v ≤ presetMax ∧ presetBytes v = d := by
  have hlt := bcdDecode_lt h
  have henc := bcdEncode_of_bcdDecode h
  rw [hl] at hlt henc
  exact ⟨by unfold presetMax; omega, by rw [presetBytes, presetWidth, henc, Option.getD_some]⟩

theorem wellFormed_cd3PresetVol_iff (a : Byte) (v : Nat) : (Instr.cd3PresetVol a v).WellFormed ↔ v ≤ presetMax := by
  simp [Instr.WellFormed, Instr.formError]

theorem wellFormed_cd4PresetAmt_iff (a : Byte) (m : Nat) : (Instr.cd4PresetAmt a m).WellFormed ↔ m ≤ presetMax := by
  simp [Instr.WellFormed, Instr.formError]

/-- A payload that decodes is one the block sends, byte for byte. -/
theorem encode_of_decodePayload {a : Byte} {p : List Byte} {i : Instr} (h : decodePayload a p = .ok i) :
    i.WellFormed ∧ encode i = .payload a p := by
  unfold decodePayload at h
  split at h
  · next tc len b =>
    split at h
    · next hb => cases h; obtain ⟨rfl, rfl, rfl⟩ := hb; exact ⟨rfl, rfl⟩
    split at h
    · next hb => cases h; obtain ⟨rfl, rfl, rfl⟩ := hb; exact ⟨rfl, rfl⟩
    split at h
    · next hb => cases h; obtain ⟨rfl, rfl, rfl⟩ := hb; exact ⟨rfl, rfl⟩
    split at h
    · next hb => cases h; obtain ⟨rfl, rfl, rfl⟩ := hb; exact ⟨rfl, rfl⟩
    split at h
    · next hb => cases h; obtain ⟨rfl, rfl⟩ := hb; exact ⟨rfl, rfl⟩
    · cases h
  · next tc len d0 d1 d2 d3 =>
    split at h
    · next hb =>
      obtain ⟨rfl, rfl⟩ := hb
      split at h
      · next v hv =>
        cases h
        obtain ⟨hle, hbytes⟩ := presetBytes_of_bcdDecode rfl hv
        exact ⟨(wellFormed_cd3PresetVol_iff a v).mpr hle, by rw [encode, hbytes]; rfl⟩
      · cases h
    split at h
    · next hb =>
      obtain ⟨rfl, rfl⟩ := hb
      split at h
      · next m hm =>
        cases h
        obtain ⟨hle, hbytes⟩ := presetBytes_of_bcdDecode rfl hm
        exact ⟨(wellFormed_cd4PresetAmt_iff a m).mpr hle, by rw [encode, hbytes]; rfl⟩
      · cases h
    · cases h
  · cases h

/-! ### Bodies (R82, R83, R85) -/

/-- The `WIRE_IN` instruction of a form. -/
def bodyInstr (form : WireForm) (a c tc l : Byte) (data : List Byte) : Instr :=
  match form with
  | .dc1Status => .dc1Status a c l data
  | .dc1Volamt => .dc1Volamt a c l data
  | .dc1Other => .dc1Other a c l data
  | .dc3Nozprice => .dc3Nozprice a c l data
  | .ignored => .rxIgnored a c tc l data

/-- A body with its four header bytes decodes to the instruction of its form. -/
theorem decodeBody_eq_bodyInstr (a c tc l : Byte) (data : List Byte) :
    decodeBody (a :: c :: tc :: l :: data) = .ok (bodyInstr (classify tc l data) a c tc l data) := by
  simp only [decodeBody, bodyInstr]
  cases classify tc l data <;> rfl

/-- The form of a body decides by TRANS, then for 0x81 by the two tests of R82. -/
theorem classify_cases (tc l : Byte) (data : List Byte) :
    (tc = 0x81 ∧ (data.head? = some 0x00 ∧ 2 ≤ l) ∧ classify tc l data = .dc1Status) ∨
    (tc = 0x81 ∧ (data.head? = some 0x04 ∧ 8 ≤ l) ∧ classify tc l data = .dc1Volamt) ∨
    (tc = 0x81 ∧ ¬((data.head? = some 0x00 ∧ 2 ≤ l) ∨ (data.head? = some 0x04 ∧ 8 ≤ l)) ∧
      classify tc l data = .dc1Other) ∨
    (tc = 0x83 ∧ classify tc l data = .dc3Nozprice) ∨
    (¬(tc = 0x81 ∨ tc = 0x83) ∧ classify tc l data = .ignored) := by
  unfold classify
  split
  · next h81 =>
    split
    · next hs => exact .inl ⟨h81, hs, rfl⟩
    · next hs =>
      split
      · next hv => exact .inr (.inl ⟨h81, hv, rfl⟩)
      · next hv => exact .inr (.inr (.inl ⟨h81, not_or.mpr ⟨hs, hv⟩, rfl⟩))
  · next h81 =>
    split
    · next h83 => exact .inr (.inr (.inr (.inl ⟨h83, rfl⟩)))
    · next h83 => exact .inr (.inr (.inr (.inr ⟨not_or.mpr ⟨h81, h83⟩, rfl⟩)))

/-- Two checks in a row find nothing wrong exactly when neither does. -/
theorem two_checks_eq_none_iff {P Q : Prop} [Decidable P] [Decidable Q] (e f : FormError) :
    (if P then some e else if Q then some f else none) = none ↔ ¬P ∧ ¬Q := by
  by_cases hP : P <;> by_cases hQ : Q <;> simp [hP, hQ]

theorem wellFormed_dc1Status_iff (a c l : Byte) (data : List Byte) :
    (Instr.dc1Status a c l data).WellFormed ↔ data.head? = some 0x00 ∧ 2 ≤ l := by
  rw [Instr.WellFormed, Instr.formError, two_checks_eq_none_iff, not_not, BitVec.not_lt]

theorem wellFormed_dc1Volamt_iff (a c l : Byte) (data : List Byte) :
    (Instr.dc1Volamt a c l data).WellFormed ↔ data.head? = some 0x04 ∧ 8 ≤ l := by
  rw [Instr.WellFormed, Instr.formError, two_checks_eq_none_iff, not_not, BitVec.not_lt]

theorem wellFormed_dc1Other_iff (a c l : Byte) (data : List Byte) : (Instr.dc1Other a c l data).WellFormed ↔
    ¬((data.head? = some 0x00 ∧ 2 ≤ l) ∨ (data.head? = some 0x04 ∧ 8 ≤ l)) := by
  simp only [Instr.WellFormed, Instr.formError, ite_eq_right_iff, reduceCtorEq, imp_false]

theorem wellFormed_rxIgnored_iff (a c tc l : Byte) (data : List Byte) :
    (Instr.rxIgnored a c tc l data).WellFormed ↔ ¬(tc = 0x81 ∨ tc = 0x83) := by
  simp only [Instr.WellFormed, Instr.formError, ite_eq_right_iff, reduceCtorEq, imp_false]

/-- What a body decodes to is well formed and is encoded as that body. -/
theorem encode_bodyInstr_classify (a c tc l : Byte) (data : List Byte) :
    (bodyInstr (classify tc l data) a c tc l data).WellFormed ∧
      encode (bodyInstr (classify tc l data) a c tc l data) = .body (a :: c :: tc :: l :: data) := by
  rcases classify_cases tc l data with ⟨rfl, hs, h⟩ | ⟨rfl, hv, h⟩ | ⟨rfl, hn, h⟩ | ⟨rfl, h⟩ | ⟨hn, h⟩ <;> rw [h]
  · exact ⟨(wellFormed_dc1Status_iff a c l data).mpr hs, rfl⟩
  · exact ⟨(wellFormed_dc1Volamt_iff a c l data).mpr hv, rfl⟩
  · exact ⟨(wellFormed_dc1Other_iff a c l data).mpr hn, rfl⟩
  · exact ⟨rfl, rfl⟩
  · exact ⟨(wellFormed_rxIgnored_iff a c tc l data).mpr hn, rfl⟩

/-- A body that decodes is the encoding of what it decodes to, and that is well formed. -/
theorem encode_of_decodeBody {b : List Byte} {i : Instr} (h : decodeBody b = .ok i) :
    i.WellFormed ∧ encode i = .body b := by
  match b, h with
  | a :: c :: tc :: l :: data, h =>
    rw [decodeBody_eq_bodyInstr, Except.ok.injEq] at h
    subst h
    exact encode_bodyInstr_classify a c tc l data

/-- The body of a form decodes to the instruction of that form. -/
theorem decodeBody_of_classify {form : WireForm} {tc l : Byte} {data : List Byte} (h : classify tc l data = form)
    (a c : Byte) : decodeBody ([a, c, tc, l] ++ data) = .ok (bodyInstr form a c tc l data) := by
  subst h
  exact decodeBody_eq_bodyInstr a c tc l data

/-! ### Both directions (R70, R90) -/

/-- Settles O1, by the encoding group of the row: a host command by the fields of its word, a preset by its digits, a
received form by the tests that its well-formedness repeats. -/
theorem decodeOfEncodeIsTheInstruction : Obligations.DecodeOfEncodeIsTheInstruction := by
  intro i hw
  cases i with
  | requestStatus a => exact decodeCommand_requestStatus_word a 0 0
  | stop a => exact decodeCommand_stop_word a 0 0
  | pumpReset a => exact decodeCommand_pumpReset_word a 0 0
  | authorize a n v m => exact decodeCommand_authorize_word a n v m
  | cd3PresetVol a v => exact decodePayload_presetVol a ((wellFormed_cd3PresetVol_iff a v).mp hw)
  | cd4PresetAmt a m => exact decodePayload_presetAmt a ((wellFormed_cd4PresetAmt_iff a m).mp hw)
  | dc1Status a c l data =>
    have hs := (wellFormed_dc1Status_iff a c l data).mp hw
    exact decodeBody_of_classify (form := .dc1Status) (by rw [classify, if_pos rfl, if_pos hs]) a c
  | dc1Volamt a c l data =>
    have hv := (wellFormed_dc1Volamt_iff a c l data).mp hw
    have hs : ¬(data.head? = some 0x00 ∧ 2 ≤ l) := fun hs => absurd (hs.1.symm.trans hv.1) (by decide)
    exact decodeBody_of_classify (form := .dc1Volamt) (by rw [classify, if_pos rfl, if_neg hs, if_pos hv]) a c
  | dc1Other a c l data =>
    obtain ⟨hs, hv⟩ := not_or.mp ((wellFormed_dc1Other_iff a c l data).mp hw)
    exact decodeBody_of_classify (form := .dc1Other) (by rw [classify, if_pos rfl, if_neg hs, if_neg hv]) a c
  | dc3Nozprice a c l data => exact decodeBody_of_classify (form := .dc3Nozprice) (tc := 0x83) rfl a c
  | rxIgnored a c tc l data =>
    obtain ⟨h81, h83⟩ := not_or.mp ((wellFormed_rxIgnored_iff a c tc l data).mp hw)
    exact decodeBody_of_classify (classify_eq_ignored h81 h83 l data) a c
  | cd1Status | cd1Reset | cd1Authorize | cd1Stop | cd2Nozzle | rx | tick | reset | snap => rfl

/-- An encoded form that decodes answers a well-formed instruction, whose encoding it is unless it is a command word. -/
theorem encode_of_decode {c : Code} {i : Instr} (h : decode c = .ok i) :
    i.WellFormed ∧ ((∀ cmd opa opb, c ≠ .input (.cmd cmd opa opb)) → encode i = c) := by
  match c, h with
  | .input (.cmd cmd opa opb), h => exact ⟨(decodeCommand_ok h).1, fun hc => absurd rfl (hc cmd opa opb)⟩
  | .input (.rx chunk), h => cases h; exact ⟨rfl, fun _ => rfl⟩
  | .input .tick, h => cases h; exact ⟨rfl, fun _ => rfl⟩
  | .input .rst, h => cases h; exact ⟨rfl, fun _ => rfl⟩
  | .input (.snap a), h => cases h; exact ⟨rfl, fun _ => rfl⟩
  | .payload a p, h => exact ⟨(encode_of_decodePayload h).1, fun _ => (encode_of_decodePayload h).2⟩
  | .body b, h => exact ⟨(encode_of_decodeBody h).1, fun _ => (encode_of_decodeBody h).2⟩

/-- Settles O2: what decodes is well formed, so O1 decodes its encoding. -/
theorem decodedFormsAreWellFormedAndReencode : Obligations.DecodedFormsAreWellFormedAndReencode := by
  intro c i h
  obtain ⟨hw, henc⟩ := encode_of_decode h
  exact ⟨hw, decodeOfEncodeIsTheInstruction i hw, henc⟩

/-- Settles O3: each word is decoded by evaluation. -/
theorem knownWordsDecode : Obligations.KnownWordsDecode := by
  refine ⟨?_, ?_, ?_, ?_, ?_, ?_⟩ <;> decide

/-! ### The assembler (R88, R89) -/

/-- The assembler closes a body as R77 writes it, the CRC low byte first. -/
theorem closeFrame_eq (body : List Byte) : closeFrame body =
    body ++ [BitVec.ofNat 8 ((crc16 body).toNat % 256), BitVec.ofNat 8 ((crc16 body).toNat / 256), 0x03, 0xFA] := by
  simp [closeFrame, frameTrailer, etx, frameEnd, crcLow_eq, crcHigh_eq]

/-- Settles O53: the command lines assemble to the words of O1, AUTHORIZE with its nozzle filled in, and RXF to a closed
frame. -/
theorem assembledLinesAreTheirOperations : Obligations.AssembledLinesAreTheirOperations := by
  intro a tc l c n v m chunk data w x y
  exact ⟨decodeCommand_requestStatus_word a 0 0, decodeCommand_stop_word a 0 0, decodeCommand_pumpReset_word a 0 0,
    decodeCommand_authorize_word a (n.getD 1) v m, rfl, rfl, rfl, rfl, rfl, rfl,
    congrArg Input.rx (closeFrame_eq ([a, 0x11, tc, l] ++ data)),
    congrArg Input.rx (closeFrame_eq ([a, c, tc, l] ++ data))⟩

end Sys2Proof
end

section
/-! The frames sent (30_encoding.md R78 to R81; 42_frame_builder.md): what each `WIRE_OUT` instruction appends, what each host
command that passes its checks appends, and that the second is the first run one after another. -/

namespace Sys2Proof.Machine

open Sys2Proof.Rules

/-! ### One frame -/

/-- Writing one frame appends the bytes of R76 and changes nothing else (R140). -/
theorem txFrame_eq (s : State) (a : Byte) (p : List Byte) : s.txFrame a p = { s with tx := s.tx ++ frame a p } := by
  rw [State.txFrame, frameBytes_eq_frame]

/-- The instruction sends one frame with this payload to this address, whatever the state. -/
def Sends (a : Byte) (i : Instr) (p : List Byte) : Prop :=
  ∀ s : State, exec i s = .next { s with tx := s.tx ++ frame a p }

theorem sends_cd1Status (a : Byte) : Sends a (.cd1Status a) [0x01, 0x01, 0x00] :=
  fun s => congrArg Host.Outcome.next (txFrame_eq s a payloadStatus)

theorem sends_cd1Reset (a : Byte) : Sends a (.cd1Reset a) [0x01, 0x01, 0x05] :=
  fun s => congrArg Host.Outcome.next (txFrame_eq s a payloadReset)

theorem sends_cd1Authorize (a : Byte) : Sends a (.cd1Authorize a) [0x01, 0x01, 0x06] :=
  fun s => congrArg Host.Outcome.next (txFrame_eq s a payloadAuthorize)

theorem sends_cd1Stop (a : Byte) : Sends a (.cd1Stop a) [0x01, 0x01, 0x08] :=
  fun s => congrArg Host.Outcome.next (txFrame_eq s a payloadStop)

theorem sends_cd2Nozzle (a n : Byte) : Sends a (.cd2Nozzle a n) [0x02, 0x01, n] :=
  fun s => congrArg Host.Outcome.next (txFrame_eq s a (payloadNozzle n))

theorem sends_cd3PresetVol (a : Byte) {v : Nat} (h : v ≤ 99999999) :
    Sends a (.cd3PresetVol a v) ([0x03, 0x04] ++ bcd4 v) := by
  intro s
  simp only [exec, execCd3PresetVol, payloadPreset_of_le _ h, txFrame_eq]

theorem sends_cd4PresetAmt (a : Byte) {m : Nat} (h : m ≤ 99999999) :
    Sends a (.cd4PresetAmt a m) ([0x04, 0x04] ++ bcd4 m) := by
  intro s
  simp only [exec, execCd4PresetAmt, payloadPreset_of_le _ h, txFrame_eq]

/-- Settles O15: each of the five instructions sends its one frame. -/
theorem fixedWireFramesComplete : Obligations.FixedWireFramesComplete :=
  fun s a n => ⟨sends_cd1Status a s, sends_cd1Reset a s, sends_cd1Authorize a s, sends_cd1Stop a s, sends_cd2Nozzle a n s⟩

/-- Settles O16: a value that fits is packed into the payload of the one frame sent. -/
theorem presetWireFramesComplete : Obligations.PresetWireFramesComplete :=
  fun s a _ h => ⟨sends_cd3PresetVol a h s, sends_cd4PresetAmt a h s⟩

/-- A value that does not fit has no preset payload (R121). -/
theorem payloadPreset_of_gt (tc : Byte) {v : Nat} (h : 99999999 < v) : payloadPreset tc v = .error .overflow := by
  rcases payloadPreset_cases tc v with ⟨hle, -⟩ | ⟨-, he⟩
  · omega
  · exact he

/-- ERR_OVERFLOW writes its code and its response only (R148, R231). -/
theorem raiseError_overflow (s : State) : s.raiseError .overflow =
    { s with result := 0x02, responses := s.responses ++ [.result 0x02] } := rfl

theorem exec_cd3PresetVol_of_gt (s : State) (a : Byte) {v : Nat} (h : 99999999 < v) :
    exec (.cd3PresetVol a v) s = .next (s.raiseError .overflow) := by
  simp only [exec, execCd3PresetVol, payloadPreset_of_gt _ h]

theorem exec_cd4PresetAmt_of_gt (s : State) (a : Byte) {m : Nat} (h : 99999999 < m) :
    exec (.cd4PresetAmt a m) s = .next (s.raiseError .overflow) := by
  simp only [exec, execCd4PresetAmt, payloadPreset_of_gt _ h]

/-- Settles O17: without a payload the instruction raises ERR_OVERFLOW. -/
theorem presetWireFramesOverflow : Obligations.PresetWireFramesOverflow := by
  intro s a v h
  rw [exec_cd3PresetVol_of_gt s a h, exec_cd4PresetAmt_of_gt s a h, raiseError_overflow]
  exact ⟨rfl, rfl⟩

/-! ### Host commands that pass their checks (R143 to R146) -/

/-- A host command of one payload, past its address check. -/
theorem hostCommand_of_payload {s : State} {a : Byte} (ha : sendable s a) (p : List Byte) :
    s.hostCommand a (.ok [p]) = finish s 0x00 (frame a p) := by
  rw [hostCommand_of_payloads ha, List.map_singleton, List.flatten_singleton]

/-- Settles O11: each of the three commands is the host-command step over its one payload. -/
theorem singleFrameCommandsComplete : Obligations.SingleFrameCommandsComplete :=
  fun _ _ ha => ⟨congrArg Host.Outcome.next (hostCommand_of_payload ha payloadStatus),
    congrArg Host.Outcome.next (hostCommand_of_payload ha payloadStop),
    congrArg Host.Outcome.next (hostCommand_of_payload ha payloadReset)⟩

theorem not_presetOverflows {p : Option Word32} (h : ∀ w, p = some w → w.toNat ≤ 99999999) : ¬presetOverflows p := by
  rintro ⟨w, hw, hlt⟩
  exact absurd (h w hw) (Nat.not_le.mpr hlt)

/-- Settles O12: presets that fit give the payloads of R144 in their order. -/
theorem authorizeCompletes : Obligations.AuthorizeCompletes := by
  intro s a n v m ha hv hm
  rw [exec_authorize, authorizePayloads_of_fits n (not_presetOverflows hv) (not_presetOverflows hm),
    hostCommand_of_payloads ha]
  rfl

/-! ### A host command as a run of its frames (R61) -/

/-- Running instructions that each send one frame appends the frames in order and changes nothing else. -/
theorem execAll_of_sends {a : Byte} {is : List Instr} {ps : List (List Byte)} (h : List.Forall₂ (Sends a) is ps)
    (s : State) : execAll is s = .next { s with tx := s.tx ++ (ps.map (frame a)).flatten } := by
  induction h generalizing s with
  | nil => simp [execAll]
  | cons hi _ ih =>
    rw [execAll, hi s]
    simp [ih]

/-- The frame of an optional preset that fits, none when it is absent. -/
theorem sends_preset {a tc : Byte} {wire : Nat → Instr} {p : Option Word32}
    (hp : ∀ w, p = some w → w.toNat ≤ 99999999)
    (hwire : ∀ v, v ≤ 99999999 → Sends a (wire v) ([tc, 0x04] ++ bcd4 v)) :
    List.Forall₂ (Sends a) (p.map fun w => wire w.toNat).toList (preset tc p) := by
  cases p with
  | none => exact .nil
  | some w => exact .cons (hwire _ (hp w rfl)) .nil

/-- The `WIRE_OUT` instructions of AUTHORIZE send its payloads, one each, in order (R144). -/
theorem sends_wireForms_authorize (a n : Byte) {v m : Option Word32} (hv : ∀ w, v = some w → w.toNat ≤ 99999999)
    (hm : ∀ w, m = some w → w.toNat ≤ 99999999) :
    List.Forall₂ (Sends a) (wireForms (.authorize a n v m))
      ([[0x02, 0x01, n]] ++ preset 0x03 v ++ preset 0x04 m ++ [[0x01, 0x01, 0x06]]) := by
  have hvol := sends_preset (wire := .cd3PresetVol a) hv fun _ => sends_cd3PresetVol a
  have hamt := sends_preset (wire := .cd4PresetAmt a) hm fun _ => sends_cd4PresetAmt a
  exact List.rel_append (List.rel_append (List.rel_append (.cons (sends_cd2Nozzle a n) .nil) hvol) hamt)
    (.cons (sends_cd1Authorize a) .nil)

/-- A command that ends with OK after its payloads is the run of instructions that send them, and then OK. -/
theorem command_of_sends {s : State} {a : Byte} {i : Instr} {is : List Instr} {ps : List (List Byte)}
    (hsends : List.Forall₂ (Sends a) is ps)
    (hexec : exec i s = .next (finish s 0x00 (ps.map (frame a)).flatten)) :
    ∃ t, execAll is s = .next t ∧
      exec i s = .next { t with result := 0x00, responses := s.responses ++ [.result 0x00] } :=
  ⟨_, execAll_of_sends hsends s, hexec⟩

/-- Settles O18: the payloads of each command, sent by its `WIRE_OUT` instructions one after another, are the bytes that
O11 and O12 append. -/
theorem hostCommandsRunTheirWireForms : Obligations.HostCommandsRunTheirWireForms := by
  intro s a n v m i hi ha hv hm
  rcases hi with rfl | rfl | rfl | rfl
  · exact command_of_sends (.cons (sends_cd1Status a) .nil) (congrArg _ (hostCommand_of_payloads ha [payloadStatus]))
  · exact command_of_sends (.cons (sends_cd1Stop a) .nil) (congrArg _ (hostCommand_of_payloads ha [payloadStop]))
  · exact command_of_sends (.cons (sends_cd1Reset a) .nil) (congrArg _ (hostCommand_of_payloads ha [payloadReset]))
  · exact command_of_sends (sends_wireForms_authorize a n hv hm) (authorizeCompletes s a n v m ha hv hm)

end Sys2Proof.Machine
end

section
/-! What a step can do, once for all twenty instructions (20_memory.md R59): a receive run changes the buffer and reports, a
command ends with its code and its frames, a frame is sent, the block is reset, an entry is read. The statements that hold of
every step are read off these cases. -/

namespace Sys2Proof.Machine

open Sys2Proof.Rules

/-! ### Received deltas (R25) -/

/-- What the data of a form supplies lies in the ranges of R25. -/
theorem formDelta_inRange {limit : Option Nat} {w : WireForm} {data : List Byte} {d : Entry}
    (h : formDelta limit w data = .ok d) : d.inRange limit = true := by
  rcases formDelta_ok h with
    ⟨b, -, -, rfl⟩ | ⟨v, m, -, hl, hv, hm, rfl⟩ | ⟨d0, ns, b, more, p, -, -, -, hp, rfl⟩
  · rfl
  · have hlv : (slice data 1 5).length = 4 := by simp [slice]; omega
    have hlm : (slice data 5 9).length = 4 := by simp [slice]; omega
    have hv' := bcdDecode_lt hv
    have hm' := bcdDecode_lt hm
    rw [hlv] at hv'
    rw [hlm] at hm'
    have hv'' : v ≤ presetMax := by unfold presetMax; omega
    have hm'' : m ≤ presetMax := by unfold presetMax; omega
    simp [Entry.inRange, Entry.empty, hv'', hm'']
  · simp [Entry.inRange, Entry.empty, hp]

/-! ### Receiving (R59, R170 to R186) -/

/-- What receiving does, in any number of parts: the receive state and the buffer change and stay as R23 has them, and
deltas that are not empty and lie in their ranges are merged and reported. -/
inductive Reception (s : State) : State → Prop where
  | start : Reception s s
  | buffer {t : State} {r : RxState} {b : List Byte} : Reception s t →
      (t.RxOk → State.RxOk { t with rxState := r, buf := b }) → Reception s { t with rxState := r, buf := b }
  | report {t : State} {a : Byte} {d : Entry} : Reception s t → d ≠ Entry.empty →
      d.inRange t.cfg.priceLimit = true → Reception s (t.report a d)

/-- An empty buffer is as R23 has it, in either receive state. -/
theorem rxOk_of_buf_nil (t : State) (r : RxState) : State.RxOk { t with rxState := r, buf := [] } :=
  ⟨Nat.zero_le _, List.not_mem_nil, fun _ => rfl⟩

/-- A delivered body reports what its form supplies, or nothing. -/
theorem reception_deliver {s : State} {a : Byte} {w : WireForm} {data : List Byte} :
    Reception s (s.deliver a (formDelta s.cfg.priceLimit w data)) := by
  rcases s.deliver_cases a (formDelta s.cfg.priceLimit w data) with ⟨-, -, h⟩ | ⟨d, hd, h⟩ <;> rw [h]
  · exact .start
  · exact .report .start (formDelta_ne_empty hd) (formDelta_inRange hd)

/-- Decoding a candidate is receiving. -/
theorem Reception.decodeFrame {s t : State} (h : Reception s t) (f : List Byte) : Reception s (t.decodeFrame f) := by
  rcases t.decodeFrame_cases f with ⟨-, -, ht⟩ | ⟨a, d, hd, ht⟩ <;> rw [ht]
  · exact h
  · obtain ⟨tc, l, data, hform⟩ := inspectFrame_ok hd
    exact .report h (formDelta_ne_empty hform) (formDelta_inRange hform)

/-- One byte is receiving, in each case of the receive state machine. -/
theorem Reception.rxByte {s t : State} (h : Reception s t) (b : Byte) : Reception s (rxByte t b) := by
  rcases rxByte_cases t b with
    ⟨-, -, ht⟩ | ⟨-, -, -, ht⟩ | ⟨hs, hb, hl, ht⟩ | ⟨hs, -, ht⟩ | ⟨-, -, ht⟩ <;> rw [ht]
  · exact (Reception.buffer h fun _ => rxOk_of_buf_nil t t.rxState).decodeFrame _
  · exact .buffer h fun _ => rxOk_of_buf_nil t .discard
  · refine .buffer (r := t.rxState) h fun ⟨hlen, hmem, _⟩ => ⟨?_, ?_, ?_⟩
    · show (t.buf ++ [b]).length ≤ t.cfg.bufCap - 1
      rw [List.length_append, List.length_singleton]
      omega
    · simp [hmem, Ne.symm hb]
    · simp [hs]
  · exact .buffer (b := t.buf) h fun ⟨hlen, hmem, _⟩ => ⟨hlen, hmem, fun hd => nomatch hd⟩
  · exact h

/-- A chunk is receiving, byte by byte (R170). -/
theorem Reception.rxBytes {s t : State} (h : Reception s t) (chunk : List Byte) :
    Reception s (chunk.foldl Machine.rxByte t) := by
  induction chunk generalizing t with
  | nil => exact h
  | cons b chunk ih => exact ih (h.rxByte b)

/-- Receiving leaves the parameters, the result, the inputs, the TX stream and the responses (R59). -/
theorem Reception.frame {s t : State} (h : Reception s t) :
    t.cfg = s.cfg ∧ t.result = s.result ∧ t.inputs = s.inputs ∧ t.tx = s.tx ∧ t.responses = s.responses := by
  induction h with
  | start => exact ⟨rfl, rfl, rfl, rfl, rfl⟩
  | buffer _ _ ih => exact ih
  | report _ _ _ ih => exact ih

/-- The events `new` carry every change from the table of `s` to that of `t` (R219). -/
def Mirrors (s t : State) (new : List Event) : Prop :=
  t.events = s.events ++ new ∧
    ∀ a, snapLookup t.snap a =
      (new.filter fun ev => ev.addr = a).foldl (fun e ev => e.merge ev.delta) (snapLookup s.snap a)

theorem mirrors_of_same {s t : State} (he : t.events = s.events) (hs : t.snap = s.snap) : Mirrors s t [] :=
  ⟨by rw [he, List.append_nil], fun a => by rw [hs]; rfl⟩

/-- A report is one more event, which carries what it merges. -/
theorem Mirrors.report {s t : State} {new : List Event} (h : Mirrors s t new) (a : Byte) (d : Entry) :
    Mirrors s (t.report a d) (new ++ [{ addr := a, delta := d, snap := snapLookup (snapMerge t.snap a d) a }]) := by
  obtain ⟨hev, hsnap⟩ := h
  refine ⟨by rw [State.report_events, hev, List.append_assoc], fun x => ?_⟩
  rw [State.report_snap, snapLookup_merge, hsnap, hsnap, List.filter_append, List.foldl_append]
  by_cases hx : x = a
  · subst hx
    simp
  · simp [hx, Ne.symm hx]

theorem Reception.mirrors {s t : State} (h : Reception s t) : ∃ new, Mirrors s t new := by
  induction h with
  | start => exact ⟨[], mirrors_of_same rfl rfl⟩
  | buffer _ _ ih => exact ih
  | report _ _ _ ih =>
    obtain ⟨new, hnew⟩ := ih
    exact ⟨_, hnew.report _ _⟩

/-- Settles O28: a chunk is receiving. -/
theorem rxCompletesAndSendsNothing : Obligations.RxCompletesAndSendsNothing := by
  intro s chunk
  have hrec := Reception.rxBytes (.start (s := s)) chunk
  obtain ⟨new, hev, -⟩ := hrec.mirrors
  obtain ⟨hcfg, hresult, hinputs, htx, hresponses⟩ := hrec.frame
  refine ⟨_, rfl, ⟨new, hev.symm⟩, ?_⟩
  rw [← hcfg, ← hresult, ← hinputs, ← htx, ← hresponses]

/-! ### Sending (R78 to R81) -/

/-- The bytes of frames, each to its address. -/
def sentBytes (frames : List (Byte × List Byte)) : List Byte := (frames.map fun x => frame x.1 x.2).flatten

theorem sentBytes_toAddress (a : Byte) (ps : List (List Byte)) :
    sentBytes (ps.map fun p => (a, p)) = (ps.map (frame a)).flatten := by
  simp [sentBytes, Function.comp_def]

theorem sentBytes_singleton (a : Byte) (p : List Byte) : sentBytes [(a, p)] = frame a p := by simp [sentBytes]

theorem catalogue_presetVol {v : Nat} (h : v ≤ 99999999) : catalogue ([0x03, 0x04] ++ bcd4 v) :=
  .inr (.inr (.inr (.inr (.inr ⟨v, h, .inl rfl⟩))))

theorem catalogue_presetAmt {m : Nat} (h : m ≤ 99999999) : catalogue ([0x04, 0x04] ++ bcd4 m) :=
  .inr (.inr (.inr (.inr (.inr ⟨m, h, .inr rfl⟩))))

/-- An optional preset that fits gives catalogue payloads only. -/
theorem catalogue_of_mem_preset {tc : Byte} {p : Option Word32} (hp : ¬presetOverflows p)
    (hc : ∀ v, v ≤ 99999999 → catalogue ([tc, 0x04] ++ bcd4 v)) : ∀ q ∈ preset tc p, catalogue q := by
  cases p with
  | none => intro q hq; cases hq
  | some w =>
    intro q hq
    rw [List.mem_singleton.mp hq]
    exact hc _ (Nat.le_of_not_lt fun hlt => hp ⟨w, rfl, hlt⟩)

/-- The payloads of AUTHORIZE are in the catalogue. -/
theorem catalogue_of_authorizePayloads {n : Byte} {v m : Option Word32} {ps : List (List Byte)}
    (h : authorizePayloads n v m = .ok ps) : ∀ q ∈ ps, catalogue q := by
  by_cases hover : presetOverflows v ∨ presetOverflows m
  · rw [authorizePayloads_of_overflows n hover] at h
    cases h
  · obtain ⟨hv, hm⟩ := not_or.mp hover
    rw [authorizePayloads_of_fits n hv hm, Except.ok.injEq] at h
    subst h
    intro q hq
    simp only [List.mem_append, List.mem_singleton] at hq
    rcases hq with ((rfl | hq) | hq) | rfl
    · exact .inr (.inr (.inr (.inr (.inl ⟨n, rfl⟩))))
    · exact catalogue_of_mem_preset hv (fun _ => catalogue_presetVol) q hq
    · exact catalogue_of_mem_preset hm (fun _ => catalogue_presetAmt) q hq
    · exact .inr (.inr (.inl rfl))

/-! ### The effect of an instruction, by its kind (R59) -/

/-- What an instruction of each kind can do. A preset frame run alone is a command that only sends. -/
inductive Effect (s : State) : Kind → State → Prop where
  | finish {code : Byte} {frames : List (Byte × List Byte)} :
      code = 0x00 ∨ code = 0x01 ∨ code = 0x02 ∨ code = 0x03 → (∀ x ∈ frames, catalogue x.2) →
      Effect s .command (Rules.finish s code (sentBytes frames))
  | send {k : Kind} {frames : List (Byte × List Byte)} : k = .command ∨ k = .send → (∀ x ∈ frames, catalogue x.2) →
      Effect s k { s with tx := s.tx ++ sentBytes frames }
  | receive {t : State} : Reception s t → Effect s .receive t
  | reset : Effect s .reset { s with rxState := .collecting, buf := [], snap := [], result := 0x00 }
  | read {r : Response} : Effect s .read { s with responses := s.responses ++ [r] }

/-- An error ends a command with its code and no frame. -/
theorem effect_raiseError (s : State) (e : HostError) : Effect s .command (s.raiseError e) := by
  rw [raiseError_eq_finish]
  exact .finish (frames := []) (by cases e <;> simp [HostError.code]) (by simp)

/-- The host-command step over payloads of the catalogue: an error, or all its frames and OK. -/
theorem effect_hostCommand (s : State) (a : Byte) {p : Except HostError (List (List Byte))}
    (hp : ∀ ps, p = .ok ps → ∀ q ∈ ps, catalogue q) : Effect s .command (s.hostCommand a p) := by
  rcases s.hostCommand_cases a p with ⟨-, h⟩ | ⟨-, e, -, h⟩ | ⟨-, ps, hps, h⟩ <;> rw [h]
  · exact effect_raiseError s _
  · exact effect_raiseError s e
  · rw [complete_txFrames_eq_finish, ← sentBytes_toAddress]
    refine .finish (.inl rfl) fun x hx => ?_
    obtain ⟨q, hq, rfl⟩ := List.mem_map.mp hx
    exact hp ps hps q hq

/-- A command of one payload. -/
theorem effect_hostCommand_single (s : State) (a : Byte) {q : List Byte} (hq : catalogue q) :
    Effect s .command (s.hostCommand a (.ok [q])) := by
  refine effect_hostCommand s a fun ps hps => ?_
  cases hps
  simpa using hq

/-- An instruction that sends one frame of the catalogue. -/
theorem effect_of_sends {a : Byte} {i : Instr} {p : List Byte} (hi : Sends a i p) (hp : catalogue p)
    (hk : kind i = .command ∨ kind i = .send) (s : State) : ∃ t, exec i s = .next t ∧ Effect s (kind i) t := by
  refine ⟨_, hi s, ?_⟩
  rw [← sentBytes_singleton]
  exact .send hk (by simpa using hp)

/-- The poll sweep sends one CD1.STATUS frame per address. -/
theorem effect_tick (s : State) : ∃ t, exec .tick s = .next t ∧ Effect s .send t := by
  refine ⟨_, exec_tick s, ?_⟩
  have hbytes : (pollAddresses.map fun a => frame a payloadStatus).flatten =
      sentBytes (pollAddresses.map fun a => (a, payloadStatus)) := by simp [sentBytes, Function.comp_def]
  rw [hbytes]
  refine .send (.inr rfl) fun x hx => ?_
  obtain ⟨a, -, rfl⟩ := List.mem_map.mp hx
  exact .inl rfl

/-- Every instruction goes on, with an effect of its kind. -/
theorem exec_effect (i : Instr) (s : State) : ∃ t, exec i s = .next t ∧ Effect s (kind i) t := by
  cases i with
  | requestStatus a => exact ⟨_, rfl, effect_hostCommand_single s a (.inl rfl)⟩
  | stop a => exact ⟨_, rfl, effect_hostCommand_single s a (.inr (.inr (.inr (.inl rfl))))⟩
  | pumpReset a => exact ⟨_, rfl, effect_hostCommand_single s a (.inr (.inl rfl))⟩
  | authorize a n v m => exact ⟨_, rfl, effect_hostCommand s a fun _ => catalogue_of_authorizePayloads⟩
  | cd1Status a => exact effect_of_sends (sends_cd1Status a) (.inl rfl) (.inr rfl) s
  | cd1Reset a => exact effect_of_sends (sends_cd1Reset a) (.inr (.inl rfl)) (.inr rfl) s
  | cd1Authorize a => exact effect_of_sends (sends_cd1Authorize a) (.inr (.inr (.inl rfl))) (.inr rfl) s
  | cd1Stop a => exact effect_of_sends (sends_cd1Stop a) (.inr (.inr (.inr (.inl rfl)))) (.inr rfl) s
  | cd2Nozzle a n =>
    exact effect_of_sends (sends_cd2Nozzle a n) (.inr (.inr (.inr (.inr (.inl ⟨n, rfl⟩))))) (.inr rfl) s
  | cd3PresetVol a v =>
    by_cases hv : v ≤ 99999999
    · exact effect_of_sends (sends_cd3PresetVol a hv) (catalogue_presetVol hv) (.inl rfl) s
    · exact ⟨_, exec_cd3PresetVol_of_gt s a (Nat.lt_of_not_le hv), effect_raiseError s _⟩
  | cd4PresetAmt a m =>
    by_cases hm : m ≤ 99999999
    · exact effect_of_sends (sends_cd4PresetAmt a hm) (catalogue_presetAmt hm) (.inl rfl) s
    · exact ⟨_, exec_cd4PresetAmt_of_gt s a (Nat.lt_of_not_le hm), effect_raiseError s _⟩
  | dc1Status a c l data => exact ⟨_, rfl, .receive (reception_deliver (w := .dc1Status))⟩
  | dc1Volamt a c l data => exact ⟨_, rfl, .receive (reception_deliver (w := .dc1Volamt))⟩
  | dc1Other a c l data => exact ⟨_, rfl, .receive (reception_deliver (w := .dc1Other))⟩
  | dc3Nozprice a c l data => exact ⟨_, rfl, .receive (reception_deliver (w := .dc3Nozprice))⟩
  | rxIgnored a c tc l data => exact ⟨_, rfl, .receive .start⟩
  | rx chunk => exact ⟨_, rfl, .receive (Reception.start.rxBytes chunk)⟩
  | tick => exact effect_tick s
  | reset => exact ⟨_, exec_reset s, .reset⟩
  | snap a => exact ⟨_, rfl, .read⟩

/-- What each kind of effect leaves unchanged. -/
theorem Effect.frame {s t : State} {k : Kind} (h : Effect s k t) :
    t.cfg = s.cfg ∧ t.inputs = s.inputs ∧
    (k ≠ .receive → k ≠ .reset → t.rxState = s.rxState ∧ t.buf = s.buf ∧ t.snap = s.snap) ∧
    (k ≠ .receive → t.events = s.events) ∧
    (k ≠ .command → k ≠ .send → t.tx = s.tx) ∧
    (k ≠ .command → k ≠ .reset → t.result = s.result) ∧
    (k ≠ .command → k ≠ .read → t.responses = s.responses) := by
  cases h with
  | finish => simp [Rules.finish]
  | send hk => rcases hk with rfl | rfl <;> simp
  | receive hrec =>
    obtain ⟨hcfg, hresult, hinputs, htx, hresponses⟩ := hrec.frame
    simp [hcfg, hresult, hinputs, htx, hresponses]
  | reset => simp
  | read => simp

/-- Settles O44: every instruction has an effect of its kind. -/
theorem frameOfEveryInstruction : Obligations.FrameOfEveryInstruction := by
  intro i s
  obtain ⟨t, hexec, heffect⟩ := exec_effect i s
  exact ⟨t, hexec, heffect.frame⟩

/-! ### The effect of a step (R58, R65) -/

/-- Only the RST port decodes to an instruction that resets. -/
theorem eq_rst_of_kind_reset {x : Input} {i : Instr} (h : decodeInput x = .ok i) (hk : kind i = .reset) : x = .rst := by
  cases x with
  | cmd cmd opa opb => cases (decodeCommand_ok h).2.symm.trans hk
  | rst => rfl
  | rx chunk => cases h; cases hk
  | tick => cases h; cases hk
  | snap a => cases h; cases hk

/-- A step that goes on is idle, or has one effect on the state with its input consumed, a reset only from the RST port. -/
theorem step_effect {s t : State} (h : step s = .next t) :
    t = s ∨ ∃ x rest k, s.inputs = x :: rest ∧ (k = .reset → x = .rst) ∧ Effect { s with inputs := rest } k t := by
  obtain ⟨-, ⟨-, rfl⟩ | ⟨x, rest, hx, ⟨i, hi, hexec⟩ | ⟨e, -, rfl⟩⟩⟩ := step_cases h
  · exact .inl rfl
  · obtain ⟨t', hexec', heffect⟩ := exec_effect i { s with inputs := rest }
    cases hexec.symm.trans hexec'
    exact .inr ⟨x, rest, kind i, hx, eq_rst_of_kind_reset hi, heffect⟩
  · exact .inr ⟨x, rest, .command, hx, (nomatch ·), effect_raiseError _ _⟩

/-! ### The streams (R30, R31) -/

/-- The TX stream grows by frames of the catalogue, by none unless the kind sends. -/
theorem Effect.tx_eq {s t : State} {k : Kind} (h : Effect s k t) :
    ∃ frames, t.tx = s.tx ++ sentBytes frames ∧ ∀ x ∈ frames, catalogue x.2 := by
  have none_sent (htx : t.tx = s.tx) : ∃ frames, t.tx = s.tx ++ sentBytes frames ∧ ∀ x ∈ frames, catalogue x.2 :=
    ⟨[], by simp [htx, sentBytes], by simp⟩
  cases h with
  | finish _ hframes => exact ⟨_, rfl, hframes⟩
  | send _ hframes => exact ⟨_, rfl, hframes⟩
  | receive hrec =>
    obtain ⟨-, -, -, htx, -⟩ := hrec.frame
    exact none_sent htx
  | reset => exact none_sent rfl
  | read => exact none_sent rfl

theorem step_tx {s t : State} (h : step s = .next t) :
    ∃ frames, t.tx = s.tx ++ sentBytes frames ∧ ∀ x ∈ frames, catalogue x.2 := by
  rcases step_effect h with rfl | ⟨x, rest, k, -, -, heffect⟩
  · exact ⟨[], by simp [sentBytes], by simp⟩
  · exact heffect.tx_eq

/-- Settles O46: the frames of the step's one effect. -/
theorem onlyCatalogueFramesAreSent : Obligations.OnlyCatalogueFramesAreSent := fun _ _ h => step_tx h

/-- Only a reset changes the table without an event. -/
theorem Effect.mirrors {s t : State} {k : Kind} (h : Effect s k t) (hk : k ≠ .reset) : ∃ new, Mirrors s t new := by
  cases h with
  | receive hrec => exact hrec.mirrors
  | reset => exact absurd rfl hk
  | finish => exact ⟨[], mirrors_of_same rfl rfl⟩
  | send => exact ⟨[], mirrors_of_same rfl rfl⟩
  | read => exact ⟨[], mirrors_of_same rfl rfl⟩

/-- Settles O43: a step whose input is not RST has an effect that is no reset. -/
theorem eventsMirrorTheSnapshotTable : Obligations.EventsMirrorTheSnapshotTable := by
  intro s t hrst h
  rcases step_effect h with rfl | ⟨x, rest, k, hx, hk, heffect⟩
  · exact ⟨[], mirrors_of_same rfl rfl⟩
  · have hne : k ≠ .reset := fun hreset => hrst (by rw [hx, hk hreset]; rfl)
    exact heffect.mirrors hne

theorem Effect.events_grow {s t : State} {k : Kind} (h : Effect s k t) : s.events <+: t.events := by
  by_cases hk : k = .reset
  · subst hk
    cases h with
    | send hk => rcases hk with hk | hk <;> cases hk
    | reset => exact ⟨[], List.append_nil _⟩
  · obtain ⟨new, hev, -⟩ := h.mirrors hk
    exact ⟨new, hev.symm⟩

theorem Effect.responses_grow {s t : State} {k : Kind} (h : Effect s k t) : s.responses <+: t.responses := by
  cases h with
  | receive hrec =>
    obtain ⟨-, -, -, -, hresponses⟩ := hrec.frame
    exact ⟨[], by rw [hresponses, List.append_nil]⟩
  | finish => exact ⟨_, rfl⟩
  | read => exact ⟨_, rfl⟩
  | send => exact ⟨[], List.append_nil _⟩
  | reset => exact ⟨[], List.append_nil _⟩

/-- Settles O45: an idle step leaves the streams, and every effect appends to them. -/
theorem streamsOnlyGrow : Obligations.StreamsOnlyGrow := by
  intro s t h
  rcases step_effect h with rfl | ⟨x, rest, k, -, -, heffect⟩
  · exact ⟨⟨[], List.append_nil _⟩, ⟨[], List.append_nil _⟩, ⟨[], List.append_nil _⟩⟩
  · obtain ⟨frames, htx, -⟩ := heffect.tx_eq
    exact ⟨⟨_, htx.symm⟩, heffect.events_grow, heffect.responses_grow⟩

/-! ### Fields stay present (R26, R214) -/

/-- Every field of the first entry that is present is present in the second. -/
def Entry.PresentIn (e f : Entry) : Prop :=
  (e.status ≠ none → f.status ≠ none) ∧ (e.volume ≠ none → f.volume ≠ none) ∧ (e.amount ≠ none → f.amount ≠ none) ∧
    (e.nozzle ≠ none → f.nozzle ≠ none) ∧ (e.inUse ≠ none → f.inUse ≠ none) ∧ (e.price ≠ none → f.price ≠ none)

/-- A merge makes no present field absent. -/
theorem Entry.PresentIn.merge {e f : Entry} (h : e.PresentIn f) (d : Entry) : e.PresentIn (f.merge d) := by
  have hfield {α : Type} {new old : Option α} (hold : old ≠ none) : new.or old ≠ none :=
    fun hor => hold (Option.or_eq_none_iff.mp hor).2
  obtain ⟨h1, h2, h3, h4, h5, h6⟩ := h
  exact ⟨fun he => hfield (h1 he), fun he => hfield (h2 he), fun he => hfield (h3 he), fun he => hfield (h4 he),
    fun he => hfield (h5 he), fun he => hfield (h6 he)⟩

theorem Entry.PresentIn.foldl_merge {e f : Entry} (h : e.PresentIn f) (evs : List Event) :
    e.PresentIn (evs.foldl (fun e ev => e.merge ev.delta) f) := by
  induction evs generalizing f with
  | nil => exact h
  | cons ev evs ih => exact ih (h.merge ev.delta)

/-- Settles O42, from O43: the entry after a step is the one before with deltas merged into it. -/
theorem noStepForgetsAField : Obligations.NoStepForgetsAField := by
  intro s t a hrst h
  obtain ⟨new, -, hsnap⟩ := eventsMirrorTheSnapshotTable s t hrst h
  have hkeep : (snapLookup s.snap a).PresentIn (snapLookup t.snap a) := by
    rw [hsnap a]
    exact Entry.PresentIn.foldl_merge ⟨id, id, id, id, id, id⟩ _
  exact hkeep

/-! ### The invariant (R23, R25, R27, R31) -/

/-- A listed entry is what its table reads, or the table reads as unwritten. -/
theorem snapLookup_mem_or_empty (t : SnapTable) (a : Byte) :
    (a, snapLookup t a) ∈ t ∨ snapLookup t a = Entry.empty := by
  induction t with
  | nil => exact .inr rfl
  | cons c t ih =>
    obtain ⟨k, e⟩ := c
    rw [snapLookup]
    split
    · next hk => exact .inl (by simp [hk])
    · exact ih.imp_left (List.mem_cons_of_mem _)

/-- A cell after a store is the stored one or an old one. -/
theorem mem_snapStore {t : SnapTable} {a : Byte} {e : Entry} {c : Byte × Entry} (h : c ∈ snapStore t a e) :
    c = (a, e) ∨ c ∈ t := by
  unfold snapStore at h
  split at h
  · exact .inr (List.mem_filter.mp h).1
  · exact ((mem_snapInsert _ _ _ _).mp h).imp_right fun hc => (List.mem_filter.mp hc).1

/-- A merge of two entries in their ranges is in its ranges. -/
theorem Entry.merge_inRange {limit : Option Nat} {e d : Entry} (he : e.inRange limit = true)
    (hd : d.inRange limit = true) : (e.merge d).inRange limit = true := by
  have hfield {new old : Option Nat} {q : Nat → Bool} (hnew : new.all q = true) (hold : old.all q = true) :
      (new.or old).all q = true := by
    cases new with
    | none => exact hold
    | some v => exact hnew
  simp only [Entry.inRange, Bool.and_eq_true] at he hd ⊢
  obtain ⟨⟨hev, hem⟩, hep⟩ := he
  obtain ⟨⟨hdv, hdm⟩, hdp⟩ := hd
  exact ⟨⟨hfield hdv hev, hfield hdm hem⟩, hfield hdp hep⟩

/-- A merge of a delta in its ranges keeps the table canonical and every entry in its ranges. -/
theorem snapOk_report {t : State} {a : Byte} {d : Entry} (h : t.SnapOk) (hd : d.inRange t.cfg.priceLimit = true) :
    (t.report a d).SnapOk := by
  obtain ⟨hwf, hrange⟩ := h
  have hold : (snapLookup t.snap a).inRange t.cfg.priceLimit = true := by
    rcases snapLookup_mem_or_empty t.snap a with hmem | hempty
    · exact hrange _ hmem
    · rw [hempty]
      rfl
  refine ⟨snapMerge_wf _ _ _ hwf, fun c hc => ?_⟩
  rcases mem_snapStore hc with rfl | hc
  · exact Entry.merge_inRange hold hd
  · exact hrange c hc

/-- Merging a delta a second time changes nothing. -/
theorem Entry.merge_merge_self (e d : Entry) : (e.merge d).merge d = e.merge d := by
  have hfield {α : Type} (new old : Option α) : new.or (new.or old) = new.or old := by cases new <;> rfl
  simp only [Entry.merge, hfield]

/-- A report's event holds its delta in its entry. -/
theorem eventsOk_report {t : State} {a : Byte} {d : Entry} (h : t.EventsOk) (hd : d ≠ Entry.empty) :
    (t.report a d).EventsOk := by
  intro ev hev
  rw [State.report_events, List.mem_append, List.mem_singleton] at hev
  rcases hev with hev | rfl
  · exact h ev hev
  · refine ⟨hd, ?_⟩
    rw [snapLookup_merge, if_pos rfl, Entry.merge_merge_self]

theorem Reception.keeps_inv {s t : State} (h : Reception s t) (hs : s.Inv) : t.Inv := by
  induction h with
  | start => exact hs
  | buffer _ hrx ih => exact ⟨hrx ih.rx, ih.snap, ih.result, ih.events⟩
  | report _ hne hrange ih => exact ⟨ih.rx, snapOk_report ih.snap hrange, ih.result, eventsOk_report ih.events hne⟩

theorem Effect.keeps_inv {s t : State} {k : Kind} (h : Effect s k t) (hs : s.Inv) : t.Inv := by
  cases h with
  | receive hrec => exact hrec.keeps_inv hs
  | finish hcode => exact ⟨hs.rx, hs.snap, hcode, hs.events⟩
  | send => exact ⟨hs.rx, hs.snap, hs.result, hs.events⟩
  | read => exact ⟨hs.rx, hs.snap, hs.result, hs.events⟩
  | reset => exact ⟨rxOk_of_buf_nil s .collecting, ⟨reset_snap_wf, by simp⟩, .inl rfl, hs.events⟩

/-- Settles O40: an idle step changes nothing, and consuming an input touches no field the invariant speaks of. -/
theorem stepKeepsTheInvariant : Obligations.StepKeepsTheInvariant := by
  intro s t hs h
  rcases step_effect h with rfl | ⟨x, rest, k, -, -, heffect⟩
  · exact hs
  · exact heffect.keeps_inv ⟨hs.rx, hs.snap, hs.result, hs.events⟩

/-- Settles O41: the buffer, the table and the events are empty at reset, and `RESULT` is 0x00. -/
theorem invariantHoldsAtReset : Obligations.InvariantHoldsAtReset :=
  ⟨rxOk_of_buf_nil State.reset .collecting, ⟨reset_snap_wf, by simp [State.reset]⟩, .inl rfl,
    fun _ hev => absurd hev List.not_mem_nil⟩

end Sys2Proof.Machine
end

section
/-! Received reports (43_frame_parser.md R180 to R186): the instruction of a form delivers what the form supplies, so each of
the statements about one report turns on what its data bytes hold. -/

namespace Sys2Proof.Machine

open Sys2Proof.Rules

/-! ### What an instruction of a form does -/

/-- A report is the one the rules describe (R185, R186). -/
theorem reported_report (s : State) (a : Byte) (d : Entry) : reported s (s.report a d) a d :=
  ⟨fun x => by rw [State.report_snap, snapLookup_merge, Entry.merge_eq], rfl, rfl⟩

/-- A received form delivers what its data supplies (R174). -/
theorem exec_bodyInstr (s : State) (w : WireForm) (a c tc l : Byte) (data : List Byte) :
    exec (bodyInstr w a c tc l data) s = .next (s.deliver a (formDelta s.cfg.priceLimit w data)) := by
  cases w <;> rfl

/-- Where the form supplies a delta, the instruction reports it. -/
theorem exec_bodyInstr_reports {s : State} {w : WireForm} {data : List Byte} {d : Entry}
    (h : formDelta s.cfg.priceLimit w data = .ok d) (a c tc l : Byte) :
    ∃ t, exec (bodyInstr w a c tc l data) s = .next t ∧ reported s t a d :=
  ⟨_, by rw [exec_bodyInstr, h]; rfl, reported_report s a d⟩

/-- Where the form supplies none, the instruction changes nothing. -/
theorem exec_bodyInstr_drops {s : State} {w : WireForm} {data : List Byte} {why : DropReason}
    (h : formDelta s.cfg.priceLimit w data = .error why) (a c tc l : Byte) :
    exec (bodyInstr w a c tc l data) s = .next s := by
  rw [exec_bodyInstr, h]
  rfl

/-! ### DC1.STATUS (R180) -/

theorem deltaStatus_of_getElem {data : List Byte} {b : Byte} (h : data[1]? = some b) :
    deltaStatus data = .ok { Entry.empty with status := some b } := by
  rw [deltaStatus, h]

theorem deltaStatus_of_short {data : List Byte} (h : data.length < 2) : deltaStatus data = .error .missing := by
  rw [deltaStatus, List.getElem?_eq_none (Nat.le_of_lt_succ h)]

/-- Settles O23: `data[1]` is the delta. -/
theorem statusReportCompletes : Obligations.StatusReportCompletes := by
  intro s a c l b data h
  exact exec_bodyInstr_reports (w := .dc1Status) (deltaStatus_of_getElem h) a c 0x81 l

/-! ### DC1.VOLAMT (R181) -/

theorem deltaVolamt_of_fields {data : List Byte} {v m : Nat} (hl : 9 ≤ data.length)
    (hv : bcdDecode (slice data 1 5) = some v) (hm : bcdDecode (slice data 5 9) = some m) :
    deltaVolamt data = .ok { Entry.empty with volume := some v, amount := some m } := by
  rw [deltaVolamt, if_neg (Nat.not_lt.mpr hl), hv, hm]

/-- With a byte missing or a field that is no packed decimal nothing is supplied (R124, R179). -/
theorem deltaVolamt_of_invalid {data : List Byte}
    (h : data.length < 9 ∨ bcdDecode (slice data 1 5) = none ∨ bcdDecode (slice data 5 9) = none) :
    ∃ why, deltaVolamt data = .error why := by
  rw [deltaVolamt]
  split
  · exact ⟨_, rfl⟩
  · next hl =>
    split
    · next hv hm => simp [hl, hv, hm] at h
    · exact ⟨_, rfl⟩

/-- Settles O24: the two fields are the four BCD bytes each that O49's decoder reads back. -/
theorem volumeReportCompletes : Obligations.VolumeReportCompletes := by
  intro s a c l d0 v m more hv hm
  have hvol : slice ([d0] ++ bcd4 v ++ bcd4 m ++ more) 1 5 = bcd4 v := by simp [slice, bcd4]
  have hamt : slice ([d0] ++ bcd4 v ++ bcd4 m ++ more) 5 9 = bcd4 m := by simp [slice, bcd4]
  have hdelta := deltaVolamt_of_fields (data := [d0] ++ bcd4 v ++ bcd4 m ++ more) (by simp [bcd4])
    (hvol ▸ bcdDecode_bcd4 hv) (hamt ▸ bcdDecode_bcd4 hm)
  exact exec_bodyInstr_reports (w := .dc1Volamt) hdelta a c 0x81 l

/-! ### DC3.NOZPRICE (R83, R183) -/

theorem priceAllowed_iff (limit : Option Nat) (p : Nat) :
    priceAllowed limit p = true ↔ ∀ l, limit = some l → p ≤ l := by
  cases limit <;> simp [priceAllowed]

theorem nozzleNumber_eq (ns : Byte) : nozzleNumber ns = BitVec.ofNat 4 (ns.toNat % 16) :=
  BitVec.eq_of_toNat_eq (by simp [nozzleNumber, BitVec.extractLsb'_toNat])

theorem nozzleInUse_eq (ns : Byte) : nozzleInUse ns = decide (ns.toNat / 16 % 2 = 1) := getLsbD_eq_decide ns 4

theorem deltaNozprice_of_price {limit : Option Nat} {price : List Byte} {p : Nat} (hp : bcdDecode price = some p)
    (hlimit : priceAllowed limit p = true) (d0 ns : Byte) :
    deltaNozprice limit (d0 :: ns :: price) = .ok { Entry.empty with
      nozzle := some (nozzleNumber ns), inUse := some (nozzleInUse ns), price := some p } := by
  cases price with
  | nil => cases hp
  | cons b more => simp only [deltaNozprice, hp, hlimit, if_true]

/-- With a byte missing, a price that is no packed decimal or one above `PRICE_LIMIT` nothing is supplied (R124, R179,
R183). -/
theorem deltaNozprice_of_invalid {limit : Option Nat} {data : List Byte}
    (h : data.length < 3 ∨ bcdDecode (data.drop 2) = none ∨
      ∃ p, bcdDecode (data.drop 2) = some p ∧ ¬priceAllowed limit p = true) :
    ∃ why, deltaNozprice limit data = .error why := by
  match data with
  | [] | [_] | [_, _] => exact ⟨.missing, rfl⟩
  | d0 :: ns :: b :: more =>
    have hdrop : (d0 :: ns :: b :: more).drop 2 = b :: more := rfl
    rw [hdrop] at h
    rcases h with hl | hnone | ⟨p, hp, hlimit⟩
    · simp only [List.length_cons] at hl
      omega
    · exact ⟨.badBcd, by simp only [deltaNozprice, hnone]⟩
    · exact ⟨.range, by simp only [deltaNozprice, hp, if_neg hlimit]⟩

/-- Settles O25: the price decodes and is allowed, and the two fields of the nozzle byte are its bits [3:0] and [4]. -/
theorem nozzlePriceReportCompletes : Obligations.NozzlePriceReportCompletes := by
  intro s a c l d0 ns price p hp hlimit
  rw [← nozzleNumber_eq, ← nozzleInUse_eq]
  exact exec_bodyInstr_reports (w := .dc3Nozprice)
    (deltaNozprice_of_price hp ((priceAllowed_iff _ p).mpr hlimit) d0 ns) a c 0x83 l

/-! ### Reports that are dropped -/

/-- DC1.OTHER supplies nothing, with data or without (R180, R182). -/
theorem deltaOther_error (data : List Byte) : ∃ why, deltaOther data = .error why := by
  cases data with
  | nil => exact ⟨.missing, rfl⟩
  | cons b more => exact ⟨.ignored, rfl⟩

/-- Settles O26: in each case the form supplies no delta. -/
theorem droppedReportsChangeNothing : Obligations.DroppedReportsChangeNothing := by
  intro s a c l tc data
  refine ⟨?_, rfl, fun h => ?_, fun h => ?_, fun h => ?_⟩
  · obtain ⟨why, hwhy⟩ := deltaOther_error data
    exact exec_bodyInstr_drops (w := .dc1Other) hwhy a c 0x81 l
  · exact exec_bodyInstr_drops (w := .dc1Status) (deltaStatus_of_short h) a c 0x81 l
  · obtain ⟨why, hwhy⟩ := deltaVolamt_of_invalid h
    exact exec_bodyInstr_drops (w := .dc1Volamt) hwhy a c 0x81 l
  · have hinvalid := h.imp_right fun h => h.imp_right fun ⟨p, limit, hp, hlimit, hlt⟩ =>
      (⟨p, hp, fun hallowed => absurd ((priceAllowed_iff _ p).mp hallowed limit hlimit) (Nat.not_le.mpr hlt)⟩ :
        ∃ p, bcdDecode (data.drop 2) = some p ∧ ¬priceAllowed s.cfg.priceLimit p = true)
    obtain ⟨why, hwhy⟩ := deltaNozprice_of_invalid hinvalid
    exact exec_bodyInstr_drops (w := .dc3Nozprice) hwhy a c 0x83 l

end Sys2Proof.Machine
end

section
/-! The receive state machine (43_frame_parser.md R170 to R173): its transitions on one byte, runs of bytes that end in a
delimiter, and the statements about chunks and about whole, dropped and oversized frames. -/

namespace Sys2Proof.Machine

open Sys2Proof.Rules

/-! ### The transitions on one byte -/

section Transitions

variable {s : State} {b : Byte}

theorem rxByte_of_room (hs : s.rxState = .collecting) (hb : b ≠ frameEnd) (hl : s.buf.length ≠ s.cfg.bufCap - 1) :
    rxByte s b = { s with buf := s.buf ++ [b] } := by
  simp only [rxByte, hs, if_neg hb, if_neg hl]

theorem rxByte_of_full (hs : s.rxState = .collecting) (hb : b ≠ frameEnd) (hl : s.buf.length = s.cfg.bufCap - 1) :
    rxByte s b = { s with buf := [], rxState := .discard } := by
  simp only [rxByte, hs, if_neg hb, if_pos hl]

theorem rxByte_frameEnd_of_collecting (hs : s.rxState = .collecting) :
    rxByte s frameEnd = State.decodeFrame { s with buf := [] } (s.buf ++ [frameEnd]) := by
  simp only [rxByte, hs, if_true]

theorem rxByte_frameEnd_of_discard (hs : s.rxState = .discard) : rxByte s frameEnd = { s with rxState := .collecting } := by
  simp only [rxByte, hs, if_true]

theorem rxByte_of_discard (hs : s.rxState = .discard) (hb : b ≠ frameEnd) : rxByte s b = s := by
  simp only [rxByte, hs, if_neg hb]

end Transitions

theorem decodeFrame_of_error {s : State} {f : List Byte} {why : DropReason}
    (h : inspectFrame s.cfg.priceLimit f = .error why) : s.decodeFrame f = s := by
  rw [State.decodeFrame, h]

theorem decodeFrame_of_ok {s : State} {f : List Byte} {a : Byte} {d : Entry}
    (h : inspectFrame s.cfg.priceLimit f = .ok (a, d)) : s.decodeFrame f = s.report a d := by
  rw [State.decodeFrame, h]

/-- Settles O27: the five transitions, the last by what its candidate answers. -/
theorem receiveMachineFollowsItsRules : Obligations.ReceiveMachineFollowsItsRules := by
  intro s b
  refine ⟨fun hs hb hl => ?_, fun hs hb hl => ?_, fun hs hb => ?_, fun hs hb => ?_, fun hs hb => ?_⟩
  · exact congrArg Host.Outcome.next (rxByte_of_room hs hb hl)
  · exact congrArg Host.Outcome.next (rxByte_of_full hs hb hl)
  · subst hb
    exact congrArg Host.Outcome.next (rxByte_frameEnd_of_discard hs)
  · exact congrArg Host.Outcome.next (rxByte_of_discard hs hb)
  · subst hb
    have hend : exec (.rx [0xFA]) s = .next (State.decodeFrame { s with buf := [] } (s.buf ++ [0xFA])) :=
      congrArg Host.Outcome.next (rxByte_frameEnd_of_collecting hs)
    refine ⟨fun why hwhy => ?_, fun a d hd => ⟨_, hend, ?_⟩⟩
    · rw [hend, decodeFrame_of_error (s := { s with buf := [] }) hwhy]
    · rw [decodeFrame_of_ok (s := { s with buf := [] }) hd]
      exact reported_report { s with buf := [] } a d

/-! ### Runs that end in a delimiter -/

/-- RX of two runs of bytes is RX of the second after the first. -/
theorem exec_rx_append (s : State) (c d : List Byte) : exec (.rx (c ++ d)) s = exec (.rx d) (c.foldl rxByte s) :=
  execRx_append s c d

/-- A run that fits, received by an empty buffer, is one candidate with its delimiter (R172). -/
theorem rxBytes_candidate {s : State} {c : List Byte} (hs : s.rxState = .collecting) (hbuf : s.buf = [])
    (hc : frameEnd ∉ c) (hl : c.length + 1 ≤ s.cfg.bufCap) :
    (c ++ [frameEnd]).foldl rxByte s = s.decodeFrame (c ++ [frameEnd]) := by
  have hfit : s.buf.length + c.length ≤ s.cfg.bufCap - 1 := by
    rw [hbuf, List.length_nil]
    omega
  have hempty : { s with buf := [] } = s := by rw [← hbuf]
  have hend : rxByte { s with buf := s.buf ++ c } frameEnd =
      State.decodeFrame { s with buf := [] } (s.buf ++ c ++ [frameEnd]) := rxByte_frameEnd_of_collecting hs
  rw [List.foldl_append, rxBytes_fit s c hs hc hfit, List.foldl_cons, List.foldl_nil, hend, hempty, hbuf,
    List.nil_append]

/-- A run that does not fit, received by an empty buffer, leaves nothing once its delimiter has come (R173, R266). -/
theorem rxBytes_oversized {s : State} {c : List Byte} (hs : s.rxState = .collecting) (hbuf : s.buf = [])
    (hc : frameEnd ∉ c) (hcap : 1 ≤ s.cfg.bufCap) (hl : s.cfg.bufCap ≤ c.length) :
    (c ++ [frameEnd]).foldl rxByte s = s := by
  have hover := rxBytes_overflow s c hs hc (by rw [hbuf]; exact Nat.zero_le _) (by rw [hbuf, List.length_nil]; omega)
  rw [List.foldl_append, hover, List.foldl_cons, List.foldl_nil, rxByte_frameEnd_of_discard rfl, ← hs, ← hbuf]

/-- Settles O36: the run with its delimiter is one candidate, which is dropped. -/
theorem droppedFrameDoesNotAffectTheNext : Obligations.DroppedFrameDoesNotAffectTheNext := by
  intro s bad more why hs hbuf hbad hl hwhy
  have hdrop : (bad ++ [0xFA]).foldl rxByte s = s :=
    (rxBytes_candidate hs hbuf hbad hl).trans (decodeFrame_of_error hwhy)
  rw [exec_rx_append, hdrop]

/-- Settles O37: the run with its delimiter leaves the state as it was. -/
theorem oversizedFrameIsLostAlone : Obligations.OversizedFrameIsLostAlone := by
  intro s big more hs hbuf hbig hcap hl
  have hlost : (big ++ [0xFA]).foldl rxByte s = s := rxBytes_oversized hs hbuf hbig hcap hl
  rw [exec_rx_append, hlost]

/-! ### A whole frame (R174, R189) -/

/-- A candidate judged by its body delivers what the form of the body supplies. -/
theorem decodeFrame_eq_deliver {s : State} {f : List Byte} {a c tc l : Byte} {data : List Byte}
    (h : inspectFrame s.cfg.priceLimit f = inspectBody s.cfg.priceLimit (a :: c :: tc :: l :: data)) :
    s.decodeFrame f = s.deliver a (formDelta s.cfg.priceLimit (classify tc l data) data) := by
  rw [State.decodeFrame, h, inspectBody]
  cases formDelta s.cfg.priceLimit (classify tc l data) data <;> rfl

/-- Decoding a body whose CRC matches runs the instruction the body decodes to, whatever its ETX byte (R187). -/
theorem decodeFrame_eq_exec {body : List Byte} {lo hi : Byte} {i : Instr} (hcrc : crc16 body = trailerValue lo hi)
    (h : decodeBody body = .ok i) (s : State) (e f : Byte) :
    .next (s.decodeFrame (body ++ [lo, hi, e, f])) = exec i s := by
  match body, h with
  | a :: c :: tc :: l :: data, h =>
    rw [decodeBody_eq_bodyInstr, Except.ok.injEq] at h
    rw [← h, exec_bodyInstr, decodeFrame_eq_deliver (inspectFrame_of_crc (by simp) hcrc _ e f)]

/-- A whole frame, received by an empty buffer, is one candidate (R189). -/
theorem rxBytes_frame_candidate {s : State} {body : List Byte} {lo hi e : Byte} (hs : s.rxState = .collecting)
    (hbuf : s.buf = []) (hl : body.length + 4 ≤ s.cfg.bufCap) (hbytes : frameEnd ∉ body ++ [lo, hi, e]) :
    (body ++ [lo, hi, e, frameEnd]).foldl rxByte s = s.decodeFrame (body ++ [lo, hi, e, frameEnd]) := by
  have hrun := rxBytes_candidate hs hbuf hbytes (by simp; omega)
  rwa [List.append_assoc] at hrun

/-- A whole frame whose CRC matches, received by an empty buffer, runs the instruction of its body. -/
theorem exec_rx_frame {s : State} {body : List Byte} {lo hi e : Byte} {i : Instr} (hs : s.rxState = .collecting)
    (hbuf : s.buf = []) (hl : body.length + 4 ≤ s.cfg.bufCap) (hbytes : frameEnd ∉ body ++ [lo, hi, e])
    (hcrc : crc16 body = trailerValue lo hi) (hdec : decodeBody body = .ok i) :
    exec (.rx (body ++ [lo, hi, e, frameEnd])) s = exec i s :=
  (congrArg Host.Outcome.next (rxBytes_frame_candidate hs hbuf hl hbytes)).trans
    (decodeFrame_eq_exec hcrc hdec s e frameEnd)

/-- Settles O30: the frame carries the CRC of its body. -/
theorem receivedFrameRunsItsInstruction : Obligations.ReceivedFrameRunsItsInstruction := by
  intro s body e i hrec hi
  obtain ⟨hs, hbuf, hl, hbytes⟩ := hrec
  exact exec_rx_frame hs hbuf hl hbytes (trailerValue_crc _).symm hi

/-! ### Chunks (R170) -/

/-- A run goes on from the state its first step answers. -/
theorem run_succ_of_step {s t : State} (h : step s = .next t) (k : Nat) :
    Sys2Proof.core.run (k + 1) s = (Sys2Proof.core.run k t : Host.Outcome State Fault Refusal) := by
  rw [run_succ, h]

/-- A step on a chunk is RX on the state with that chunk consumed. -/
theorem step_rx {s : State} {c : List Byte} {rest : List Input} (hb : 17 ≤ s.cfg.bufCap)
    (hx : s.inputs = .rx c :: rest) : step s = .next { c.foldl rxByte s with inputs := rest } := by
  rw [step_of_decodes hb hx rfl, ← rxBytes_inputs]
  rfl

/-- Settles O29, by induction on the chunks: RX does not look at the inputs waiting behind a chunk. -/
theorem chunkBoundariesDoNotMatter : Obligations.ChunkBoundariesDoNotMatter := by
  intro s chunks hb hx
  induction chunks generalizing s with
  | nil =>
    have hs : { s with inputs := [] } = s := by rw [← show s.inputs = [] from hx]
    rw [hs]
    rfl
  | cons c chunks ih =>
    have hb' : 17 ≤ (c.foldl rxByte s).cfg.bufCap := by rw [(rxBytes_frame s c).1]; exact hb
    have hrest := ih { c.foldl rxByte s with inputs := chunks.map .rx } hb' rfl
    rw [List.flatten_cons, exec_rx_append, rxBytes_inputs]
    exact (run_succ_of_step (step_rx hb hx) _).trans hrest

/-! ### The merge example (R217) -/

/-- A step on a whole frame whose body supplies a delta merges and reports it. -/
theorem step_rx_frame_reports {s : State} {body : List Byte} {lo hi e a : Byte} {d : Entry} {rest : List Input}
    (hb : 17 ≤ s.cfg.bufCap) (hs : s.rxState = .collecting) (hbuf : s.buf = [])
    (hx : s.inputs = .rx (body ++ [lo, hi, e, frameEnd]) :: rest) (hl : 3 ≤ body.length ∧ body.length + 4 ≤ s.cfg.bufCap)
    (hbytes : frameEnd ∉ body ++ [lo, hi, e]) (hcrc : crc16 body = trailerValue lo hi)
    (hbody : inspectBody s.cfg.priceLimit body = .ok (a, d)) :
    step s = .next (State.report { s with inputs := rest } a d) := by
  have hdecode := decodeFrame_of_ok ((inspectFrame_of_crc hl.1 hcrc s.cfg.priceLimit e frameEnd).trans hbody)
  rw [step_rx hb hx]
  exact congrArg (fun t : State => Host.Outcome.next { t with inputs := rest })
    ((rxBytes_frame_candidate hs hbuf hl.2 hbytes).trans hdecode)

/-- The body of the example's status report. -/
def statusBody : List Byte := [0x52, 0x11, 0x81, 0x02, 0x00, 0x04]

/-- The body of the example's volume and amount report. -/
def volumeBody : List Byte := [0x52, 0x11, 0x81, 0x09, 0x04, 0x00, 0x00, 0x12, 0x34, 0x00, 0x05, 0x67, 0x89]

theorem crc16_statusBody : crc16 statusBody = trailerValue 0xA7 0xDE := by
  simp [statusBody, crc16, crcStep, crcBits, crcBit, trailerValue]

theorem crc16_volumeBody : crc16 volumeBody = trailerValue 0x49 0x5F := by
  simp [volumeBody, crc16, crcStep, crcBits, crcBit, trailerValue]

/-- Settles O39: each step reports its delta at 0x52, and the second merge keeps the field of the first. -/
theorem mergeExampleKeepsAllThreeFields : Obligations.MergeExampleKeepsAllThreeFields := by
  have hstatus := step_rx_frame_reports (s := { State.reset with inputs := [.rx (statusBody ++ [0xA7, 0xDE, 0x03, 0xFA]),
    .rx (volumeBody ++ [0x49, 0x5F, 0x03, 0xFA])] }) (a := 0x52) (d := { Entry.empty with status := some 4 })
    (by decide) rfl rfl rfl (by decide) (by decide) crc16_statusBody rfl
  have hvolume := step_rx_frame_reports (s := State.report { State.reset with
    inputs := [.rx (volumeBody ++ [0x49, 0x5F, 0x03, 0xFA])] } 0x52 { Entry.empty with status := some 4 })
    (a := 0x52) (d := { Entry.empty with volume := some 1234, amount := some 56789 })
    (by decide) rfl rfl rfl (by decide) (by decide) crc16_volumeBody rfl
  refine ⟨_, ((run_succ_of_step hstatus 1).trans (run_succ_of_step hvolume 0)).trans (run_zero _), ?_⟩
  rw [State.report_snap, snapLookup_merge, State.report_snap, snapLookup_merge]
  rfl

end Sys2Proof.Machine
end

section
/-! The CRC (40_checksum.md) as the parser uses it: its worked values, its residue, the order in which a candidate is judged,
what a change of one byte does to it, and which bytes of a candidate are never read. -/

namespace Sys2Proof.Machine

/-! ### Worked values and the residue (R101 to R108) -/

/-- Settles O47: each value is computed by the bit steps. -/
theorem checksumKnownValues : Obligations.ChecksumKnownValues := by
  refine ⟨rfl, ?_, ?_, ?_, ?_⟩ <;> simp [crc16, crcStep, crcBits, crcBit]

/-- Bit steps that meet no leading one only shift. -/
theorem crcBits_eq_shift (k : Nat) {c : Word16} (h : c.toNat < 2 ^ (16 - k)) (hk : k ≤ 16) : crcBits k c = c <<< k := by
  induction k generalizing c with
  | zero => simp [crcBits]
  | succ k ih =>
    have hpow : 2 ^ (16 - k) = 2 * 2 ^ (16 - (k + 1)) := by rw [← pow_succ']; congr 1; omega
    have hle : 2 ^ (16 - (k + 1)) ≤ 2 ^ 15 := Nat.pow_le_pow_right (by decide) (by omega)
    have htop : c.getLsbD 15 = false := by
      rw [getLsbD_eq_decide, decide_eq_false_iff_not]
      omega
    have hshift : (c <<< 1).toNat < 2 ^ (16 - k) := by
      rw [BitVec.toNat_shiftLeft, Nat.shiftLeft_eq]
      omega
    have hbit : crcBit c = c <<< 1 := by rw [crcBit, htop]; rfl
    rw [crcBits, hbit, ih hshift (by omega), ← BitVec.shiftLeft_add, Nat.add_comm]

/-- A byte equal to the high byte of the CRC cancels it, so that the low byte moves up. -/
theorem crcStep_crcHigh (c : Word16) : crcStep c (crcHigh c) = (crcLow c).setWidth 16 <<< 8 := by
  have hcancel : c ^^^ ((crcHigh c).setWidth 16 <<< 8) = (crcLow c).setWidth 16 := by
    apply BitVec.eq_of_getLsbD_eq
    intro i hi
    by_cases h8 : i < 8
    · simp [crcLow, h8, hi]
    · have hsum : 8 + (i - 8) = i := by omega
      have hlow : (crcLow c).getLsbD i = false := BitVec.getLsbD_of_ge _ _ (by omega)
      simp [crcHigh, h8, hi, hsum, hlow, show i - 8 < 8 by omega]
  have hlt : ((crcLow c).setWidth 16).toNat < 2 ^ (16 - 8) := by
    rw [BitVec.toNat_setWidth]
    exact Nat.lt_of_le_of_lt (Nat.mod_le _ _) (crcLow c).isLt
  rw [crcStep, hcancel, crcBits_eq_shift 8 hlt (by decide)]

/-- A byte equal to the high byte of a CRC whose low byte is 0 leaves 0. -/
theorem crcStep_shifted (b : Byte) : crcStep (b.setWidth 16 <<< 8) b = 0 := by
  rw [crcStep, BitVec.xor_self]
  rfl

/-- Settles O48: the high byte moves the low byte up, and the low byte then cancels it; the sample is computed. -/
theorem checksumResidueHighByteFirst : Obligations.ChecksumResidueHighByteFirst := by
  refine ⟨fun s => ?_, by simp [crc16, crcStep, crcBits, crcBit]⟩
  rw [← crcHigh_eq, ← crcLow_eq, crc16_append, List.foldl_cons, crcStep_crcHigh, List.foldl_cons, crcStep_shifted,
    List.foldl_nil]

/-! ### A candidate is judged by its CRC first (R176 to R179) -/

/-- Settles O32: past the length check the CRC alone decides whether the body is read. -/
theorem checksumDecidesBeforeTheBody : Obligations.ChecksumDecidesBeforeTheBody := by
  intro limit body lo hi e f hl
  rw [inspectFrame_append, if_neg (Nat.not_lt.mpr hl)]

/-- A body without a LEN byte is dropped (R179). -/
theorem inspectBody_of_short {body : List Byte} (h : body.length < 4) (limit : Option Nat) :
    inspectBody limit body = .error .missing := by
  match body, h with
  | [], _ | [_], _ | [_, _], _ | [_, _, _], _ => rfl

/-- Settles O33: below seven bytes by the length check, at seven by the CRC or for want of a LEN byte. -/
theorem candidatesBelowEightBytesAreDropped : Obligations.CandidatesBelowEightBytesAreDropped := by
  intro s f hf
  rcases inspectFrame_cases s.cfg.priceLimit f with ⟨-, h⟩ | ⟨body, lo, hi, e, x, rfl, -, ⟨-, h⟩ | ⟨-, h⟩⟩
  · exact decodeFrame_of_error h
  · exact decodeFrame_of_error h
  · have hbody : body.length < 4 := by
      simp only [List.length_append, List.length_cons, List.length_nil] at hf
      omega
    exact decodeFrame_of_error (h.trans (inspectBody_of_short hbody _))

/-- No form drops its data for the CRC. -/
theorem formDelta_ne_crc (limit : Option Nat) (w : WireForm) (data : List Byte) :
    formDelta limit w data ≠ .error .crc := by
  intro h
  cases w with
  | dc1Status =>
    simp only [formDelta, deltaStatus] at h
    split at h <;> cases h
  | dc1Volamt =>
    simp only [formDelta, deltaVolamt] at h
    split at h
    · cases h
    · split at h <;> cases h
  | dc1Other =>
    simp only [formDelta, deltaOther] at h
    split at h <;> cases h
  | dc3Nozprice =>
    simp only [formDelta, deltaNozprice] at h
    split at h
    · split at h
      · cases h
      · split at h <;> cases h
    · cases h
  | ignored => cases h

/-- No body is dropped for its CRC. -/
theorem inspectBody_ne_crc (limit : Option Nat) (body : List Byte) : inspectBody limit body ≠ .error .crc := by
  intro h
  unfold inspectBody at h
  split at h
  · split at h
    · cases h
    · next hw =>
      cases h
      exact formDelta_ne_crc limit _ _ hw
  · cases h

/-- Exactly the candidates whose trailer is not the CRC of their body are dropped for it. -/
theorem inspectFrame_eq_crc_iff {body : List Byte} (hl : 3 ≤ body.length) (limit : Option Nat) (lo hi e f : Byte) :
    inspectFrame limit (body ++ [lo, hi, e, f]) = .error .crc ↔ crc16 body ≠ trailerValue lo hi := by
  constructor
  · intro h hcrc
    rw [inspectFrame_of_crc hl hcrc] at h
    exact inspectBody_ne_crc limit body h
  · intro hcrc
    rw [inspectFrame_append, if_neg (Nat.not_lt.mpr hl), if_neg]
    rw [← trailerValue_toNat]
    exact fun h => hcrc (BitVec.eq_of_toNat_eq h)

/-! ### One wrong byte (R109) -/

/-- A change of one byte changes the CRC: the byte makes another value, which the bytes after it keep apart. -/
theorem crc16_ne_of_byte_ne {b b' : Byte} (h : b ≠ b') (before after : List Byte) :
    crc16 (before ++ b :: after) ≠ crc16 (before ++ b' :: after) := by
  rw [crc16_append, crc16_append, List.foldl_cons, List.foldl_cons]
  exact fun heq => h (crcStep_byte_injective _ (crcFold_injective after heq))

theorem trailerValue_ne_of_lo_ne {lo lo' : Byte} (h : lo ≠ lo') (hi : Byte) :
    trailerValue lo hi ≠ trailerValue lo' hi := by
  intro heq
  have hnat := congrArg BitVec.toNat heq
  rw [trailerValue_toNat, trailerValue_toNat] at hnat
  exact h (BitVec.eq_of_toNat_eq (by omega))

theorem trailerValue_ne_of_hi_ne {hi hi' : Byte} (h : hi ≠ hi') (lo : Byte) :
    trailerValue lo hi ≠ trailerValue lo hi' := by
  intro heq
  have hnat := congrArg BitVec.toNat heq
  rw [trailerValue_toNat, trailerValue_toNat] at hnat
  exact h (BitVec.eq_of_toNat_eq (by omega))

/-- A candidate that passes the CRC check fails it after a change of one byte before its last two. -/
theorem inspectFrame_crc_of_byte_ne {limit : Option Nat} {before after : List Byte} {b b' : Byte} (h : b ≠ b')
    (ha : 2 ≤ after.length) (hl : 7 ≤ before.length + 1 + after.length)
    (hpass : inspectFrame limit (before ++ b :: after) ≠ .error .crc) :
    inspectFrame limit (before ++ b' :: after) = .error .crc := by
  rcases show 4 ≤ after.length ∨ after.length = 3 ∨ after.length = 2 by omega with hfour | hthree | htwo
  · obtain ⟨rest, lo, hi, e, f, rfl⟩ := exists_last_four hfour
    have hsplit (x : Byte) : before ++ x :: (rest ++ [lo, hi, e, f]) = (before ++ x :: rest) ++ [lo, hi, e, f] := by simp
    have hlen (x : Byte) : 3 ≤ (before ++ x :: rest).length := by simp at hl ⊢; omega
    rw [hsplit, Ne, inspectFrame_eq_crc_iff (hlen b), not_not] at hpass
    rw [hsplit, inspectFrame_eq_crc_iff (hlen b'), ← hpass]
    exact (crc16_ne_of_byte_ne h before rest).symm
  · obtain ⟨hi, e, f, rfl⟩ := List.length_eq_three.mp hthree
    have hlen : 3 ≤ before.length := by simp at hl; omega
    rw [Ne, inspectFrame_eq_crc_iff hlen, not_not] at hpass
    rw [inspectFrame_eq_crc_iff hlen, hpass]
    exact trailerValue_ne_of_lo_ne h hi
  · obtain ⟨e, f, rfl⟩ := List.length_eq_two.mp htwo
    obtain ⟨body, lo, rfl⟩ : ∃ body lo, before = body ++ [lo] := by
      refine (List.eq_nil_or_concat' before).resolve_left ?_
      rintro rfl
      simp at hl
    have hsplit (x : Byte) : body ++ [lo] ++ [x, e, f] = body ++ [lo, x, e, f] := by simp
    have hlen : 3 ≤ body.length := by simp at hl; omega
    rw [hsplit, Ne, inspectFrame_eq_crc_iff hlen, not_not] at hpass
    rw [hsplit, inspectFrame_eq_crc_iff hlen, hpass]
    exact trailerValue_ne_of_hi_ne h lo

/-- A byte with one bit flipped is another byte. -/
theorem ne_xor_twoPow {b : Byte} {k : Nat} (hk : k < 8) : b ≠ b ^^^ BitVec.twoPow 8 k := by
  intro h
  have hbit := congrArg (fun x : Byte => x.getLsbD k) h
  simp [hk] at hbit

/-- Settles O31: a flipped bit is a change of one byte. -/
theorem oneBitErrorIsRejected : Obligations.OneBitErrorIsRejected := by
  intro limit before after b k hk ha hl hpass
  rw [List.append_assoc] at hpass ⊢
  exact inspectFrame_crc_of_byte_ne (ne_xor_twoPow hk) ha hl hpass

/-! ### Bytes that are not read (R187) -/

/-- The price report does not look at `data[0]`. -/
theorem deltaNozprice_first (limit : Option Nat) (d d' : Byte) (rest : List Byte) :
    deltaNozprice limit (d :: rest) = deltaNozprice limit (d' :: rest) := by
  match rest with
  | [] | [_] | _ :: _ :: _ => rfl

/-- Settles O35: the CRC check reads the two bytes before the ETX byte, the body its address, TRANS, LEN and data, and the
form 0x83 only the data after `data[0]`. -/
theorem uncheckedBytesDoNotMatter : Obligations.UncheckedBytesDoNotMatter := by
  intro limit body rest lo hi e e' f a c c' l l' d d'
  refine ⟨?_, ?_, ?_⟩
  · rw [inspectFrame_append, inspectFrame_append]
  · match rest with
    | [] | [_] | _ :: _ :: _ => rfl
  · have hform (l d : Byte) : classify 0x83 l (d :: rest) = .dc3Nozprice := rfl
    simp only [inspectBody, hform, formDelta, deltaNozprice_first limit d d' rest]

end Sys2Proof.Machine
end

section
/-! One step and runs of steps (20_memory.md R58; 60_exceptions.md): what a step runs, when it stops, and that no run of an
accepted configuration does; with them the SNAP read, the power-up state and the printed words of an entry. -/

namespace Sys2Proof.Machine

/-! ### Steps and runs -/

/-- Settles O4: an accepted configuration and an input that decodes take the step past both of its checks. -/
theorem stepRunsTheDecodedInput : Obligations.StepRunsTheDecodedInput :=
  fun _ _ _ _ hb hx hi => step_of_decodes hb hx hi

/-- Settles O5: with no input to fetch the step is the idle one. -/
theorem stepWithoutInputIsIdle : Obligations.StepWithoutInputIsIdle := by
  intro s hb hx
  simp only [step, Nat.not_lt.mpr hb, if_false, fetchInput, hx, execIdle]

/-- A configuration with `BUF_CAP` below 17 is refused before any effect (R9). -/
theorem step_refused {s : State} (h : s.cfg.bufCap < 17) : step s = .refused (.configRejected s.cfg.bufCap) := if_pos h

/-- With an accepted configuration a step goes on: idle, with an instruction, or with ERR_ILLEGAL. -/
theorem step_next {s : State} (hb : 17 ≤ s.cfg.bufCap) : ∃ t, step s = .next t := by
  cases hx : s.inputs with
  | nil => exact ⟨s, stepWithoutInputIsIdle s hb hx⟩
  | cons x rest =>
    cases hi : decodeInput x with
    | ok i =>
      rw [step_of_decodes hb hx hi]
      exact exec_next i _
    | error e => exact ⟨_, step_of_decode_error hb hx hi⟩

/-- Settles O6: the capacity is checked first, and past it every kind of step goes on. -/
theorem stepStopsOnlyOnASmallBuffer : Obligations.StepStopsOnlyOnASmallBuffer := fun _ => ⟨step_refused, step_next⟩

/-- No step writes the configuration (R20, R35). -/
theorem step_cfg {s t : State} (h : step s = .next t) : t.cfg = s.cfg := by
  rcases step_effect h with rfl | ⟨x, rest, k, -, -, heffect⟩
  · rfl
  · exact heffect.frame.1

/-- Settles O7, by induction on the number of steps: each goes on and keeps the configuration. -/
theorem acceptedConfigurationNeverStops : Obligations.AcceptedConfigurationNeverStops := by
  intro s hb k
  induction k generalizing s with
  | zero => exact ⟨s, run_zero s⟩
  | succ k ih =>
    obtain ⟨t, ht⟩ := step_next hb
    obtain ⟨u, hu⟩ := ih t (by rw [Config.WellFormed, step_cfg ht]; exact hb)
    exact ⟨u, (run_succ_of_step ht k).trans hu⟩

/-! ### SNAP, power-up and block reset (R215, R260, R261) -/

/-- Settles O20: the record update of SNAP names the responses only. -/
theorem snapReadReturnsTheEntry : Obligations.SnapReadReturnsTheEntry := fun _ _ => rfl

/-- Settles O22: block reset writes the values the power-up state holds. -/
theorem powerUpEqualsReset : Obligations.PowerUpEqualsReset :=
  ⟨rfl, rfl, rfl, snapLookup_nil, exec_reset State.reset⟩

/-- Settles O54: block reset names neither list. -/
theorem blockResetLeavesTheWaitingLists : Obligations.BlockResetLeavesTheWaitingLists :=
  fun s => ⟨_, exec_reset s, rfl, rfl⟩

/-! ### The printed words of an entry (R32) -/

/-- The valid bits of R32 as a number, in their order. -/
def validBits (e : Entry) : Nat :=
  (if e.status = none then 0 else 1) + (if e.volume = none then 0 else 2) + (if e.amount = none then 0 else 4) +
    (if e.nozzle = none then 0 else 8) + (if e.inUse = none then 0 else 16) + (if e.price = none then 0 else 32)

theorem validBits_eq (e : Entry) : validBits e =
    e.status.isSome.toNat + 2 ^ 1 * e.volume.isSome.toNat + 2 ^ 2 * e.amount.isSome.toNat +
      2 ^ 3 * e.nozzle.isSome.toNat + 2 ^ 4 * e.inUse.isSome.toNat + 2 ^ 5 * e.price.isSome.toNat := by
  have hbit {α : Type} (o : Option α) [Decidable (o = none)] (n : Nat) :
      (if o = none then 0 else n) = n * o.isSome.toNat := by cases o <;> simp
  simp only [validBits, hbit]
  omega

theorem validBits_lt (e : Entry) : validBits e < 64 := by
  have hbit {α : Type} (o : Option α) : o.isSome.toNat ≤ 1 := Bool.toNat_le _
  have hstatus := hbit e.status
  have hvolume := hbit e.volume
  have hamount := hbit e.amount
  have hnozzle := hbit e.nozzle
  have hinUse := hbit e.inUse
  have hprice := hbit e.price
  rw [validBits_eq]
  omega

/-- W0 is the sum of its fields, each shifted to its place: none overlaps another, and the sum stays below 2^21. -/
theorem entryW0_toNat (e : Entry) : (entryW0 e).toNat =
    validBits e + 2 ^ 8 * (e.status.getD 0).toNat + 2 ^ 16 * (e.nozzle.getD 0).toNat +
      2 ^ 20 * (e.inUse.getD false).toNat := by
  have hvalid := validBits_lt e
  have hstatus := (e.status.getD 0).isLt
  have hnozzle := (e.nozzle.getD 0).isLt
  have hinUse := Bool.toNat_le (e.inUse.getD false)
  rw [entryW0, ← validBits_eq, BitVec.toNat_ofNat]
  omega

/-- A field of at most eight digits fits its printed word. -/
theorem ofNat_toNat_of_le {v : Nat} (h : v ≤ 99999999) : (BitVec.ofNat 32 v).toNat = v := by
  rw [BitVec.toNat_ofNat]
  omega

/-- Settles O52: W0 as the sum of its fields, cut at their places; W1 to W3 are one field each. -/
theorem printedEntryLayout : Obligations.PrintedEntryLayout := by
  intro e
  have hW0 := entryW0_toNat e
  have hvalid := validBits_lt e
  have hstatus := (e.status.getD 0).isLt
  have hnozzle := (e.nozzle.getD 0).isLt
  have hinUse := Bool.toNat_le (e.inUse.getD false)
  have cutStatus : (entryW0 e).toNat / 2 ^ 8 % 256 = (e.status.getD 0).toNat := by omega
  have cutNozzle : (entryW0 e).toNat / 2 ^ 16 % 16 = (e.nozzle.getD 0).toNat := by omega
  have cutInUse : (entryW0 e).toNat / 2 ^ 20 % 2 = (e.inUse.getD false).toNat := by omega
  refine ⟨?_, by omega, fun b hb => ?_, fun n hn => ?_, fun u hu => ?_, fun h => ?_, fun h => ?_, fun h => ?_, by omega,
    fun v hv hle => ?_, fun h => ?_, fun m hm hle => ?_, fun h => ?_, fun p hp => ?_, fun h => ?_⟩
  · have cutValid : (entryW0 e).toNat % 64 = validBits e := by omega
    exact cutValid
  · rw [cutStatus, hb, Option.getD_some]
  · rw [cutNozzle, hn, Option.getD_some]
  · rw [cutInUse, hu, Option.getD_some]
    cases u <;> rfl
  · rw [cutStatus, h]; rfl
  · rw [cutNozzle, h]; rfl
  · rw [cutInUse, h]; rfl
  · rw [entryW1, hv, Option.getD_some, ofNat_toNat_of_le hle]
  · rw [entryW1, h]; rfl
  · rw [entryW2, hm, Option.getD_some, ofNat_toNat_of_le hle]
  · rw [entryW2, h]; rfl
  · rw [entryW3, hp, Option.getD_some]
  · rw [entryW3, h]; rfl

end Sys2Proof.Machine
end
